-- ==== Sys2Proof/Word.lean ====
section
/-! DEFINITION. The octet and the buffer view (spec/00_scope.md R7, spec/20_memory.md R21). -/

namespace Sys2Proof

/-- An octet (R7): a `u8`. -/
abbrev Byte := BitVec 8

/-- A buffer view, as decision D9 represents it (R21): offset `i` of the view is byte `base + i` of the store, and `i < cap`
is what makes an access legal. The capacity is not an operand of the hardware; the model carries it with every view (D9). -/
structure View where
  base : Nat
  cap  : Nat
  deriving DecidableEq, Repr

end Sys2Proof
end

