-- ==== Sys2Proof/Config.lean ====
section
/-! DEFINITION. The one parameter of the block, the pointer width `W` (spec/00_scope.md R5, spec/41_address_codec.md R78). -/

namespace Sys2Proof

/-- The pointer width `W` in bytes. The type has exactly the four legal values 1, 2, 4, 8, so no operation ever meets another
(R5, R78, D5: an unsupported width is rejected before the block exists). -/
inductive PtrWidth where
  | w1
  | w2
  | w4
  | w8
  deriving DecidableEq, Repr, Inhabited

/-- `W` as a number of bytes. -/
def PtrWidth.bytes : PtrWidth → Nat
  | .w1 => 1
  | .w2 => 2
  | .w4 => 4
  | .w8 => 8

/-- The carrier `a` holds a value of `8*W` bits: the bits at and above `8*W` are zero (R71, D6). -/
def PtrWidth.fits (w : PtrWidth) (a : BitVec 64) : Bool := decide (a.toNat < 2 ^ (8 * w.bytes))

/-- The value of `W` the build fixed (R5, R14). The spec leaves it OPEN (D5): a constant with no body, so that nothing can be
proved of which of the four values it is. Log entry 1. -/
opaque Config.pointerWidth : PtrWidth

end Sys2Proof
end

