-- ==== Sys2Proof/Syntax.lean ====
section
/-! DEFINITION. The 16 operations of spec/30_encoding.md R41 with their operands (R36, spec/10_state.md R11). -/

namespace Sys2Proof

/-- One constructor per row of the operation table (R41). `address` and `pointer` travel in a 64-bit carrier for every `W`; the
bits at and above `8*W` must be zero (R71, D6; `Instr.wellFormed`). -/
inductive Instr where
  | enc16be (value : BitVec 16) (buf : View)
  | enc32be (value : BitVec 32) (buf : View)
  | enc64be (value : BitVec 64) (buf : View)
  | enc16le (value : BitVec 16) (buf : View)
  | enc32le (value : BitVec 32) (buf : View)
  | enc64le (value : BitVec 64) (buf : View)
  | dec16be (buf : View)
  | dec32be (buf : View)
  | dec64be (buf : View)
  | dec16le (buf : View)
  | dec32le (buf : View)
  | dec64le (buf : View)
  | encaddr (address : BitVec 64) (buf : View)
  | encaddrp (pointer : BitVec 64) (buf : View)
  | decaddr (buf : View)
  | crc32 (buf : View) (length : Nat) (startValue : BitVec 32)
  deriving DecidableEq, Repr

/-- The one pseudo-operation: `crc32(data, length)` expands to `crc32(data, length, 0)` (R46). -/
abbrev Instr.crc32Unseeded (buf : View) (length : Nat) : Instr := .crc32 buf length 0

end Sys2Proof
end

