-- ==== Sys2Proof/Decode.lean ====
section
/-! DEFINITION. Operation requests, their decoder and encoder (spec/30_encoding.md R35 to R43, R49). -/

namespace Sys2Proof

/-- An operation request (R35, R36): the 6-bit operation-select code and the operand ports. One port, `value`, carries the
`value`, `address` or `pointer` of the request (R11); it is 64 bits wide for every operation, so the bits above an operand's
width must be zero (D6). Log entry 5. -/
structure Request where
  op         : BitVec 6
  value      : BitVec 64
  buf        : View
  length     : Nat
  startValue : BitVec 32
  deriving DecidableEq, Repr

/-! The 16 operation-select codes (R41). -/

def OpCode.enc16be : BitVec 6 := 0b000001#6
def OpCode.enc32be : BitVec 6 := 0b000010#6
def OpCode.enc64be : BitVec 6 := 0b000011#6
def OpCode.enc16le : BitVec 6 := 0b000101#6
def OpCode.enc32le : BitVec 6 := 0b000110#6
def OpCode.enc64le : BitVec 6 := 0b000111#6
def OpCode.dec16be : BitVec 6 := 0b001001#6
def OpCode.dec32be : BitVec 6 := 0b001010#6
def OpCode.dec64be : BitVec 6 := 0b001011#6
def OpCode.dec16le : BitVec 6 := 0b001101#6
def OpCode.dec32le : BitVec 6 := 0b001110#6
def OpCode.dec64le : BitVec 6 := 0b001111#6
def OpCode.encaddr : BitVec 6 := 0b010000#6
def OpCode.encaddrp : BitVec 6 := 0b010001#6
def OpCode.decaddr : BitVec 6 := 0b011000#6
def OpCode.crc32 : BitVec 6 := 0b100000#6

/-- Why a request selects no operation. -/
inductive Reject where
  /-- `op` is one of the 48 reserved codes (R42). -/
  | illegalOp (op : BitVec 6)
  /-- A port carries a bit the operation's operand does not have (D6: the excess input bits of a wider carrier must be zero). -/
  | operandTooWide (op : BitVec 6)
  deriving DecidableEq, Repr

/-- A request that carries one operand of `n` bits and a view (R36, formats E and A with `dir` = 0). -/
def valueForm (n : Nat) (r : Request) (mk : BitVec n → Instr) : Except Reject Instr :=
  if r.value.toNat < 2 ^ n ∧ r.length = 0 ∧ r.startValue = 0 then .ok (mk (r.value.setWidth n))
  else .error (.operandTooWide r.op)

/-- A request that carries a view only (R36, formats E and A with `dir` = 1). -/
def viewForm (r : Request) (i : Instr) : Except Reject Instr :=
  if r.value = 0 ∧ r.length = 0 ∧ r.startValue = 0 then .ok i else .error (.operandTooWide r.op)

/-- A request that carries a view, a length and a seed (R36, format C). -/
def checksumForm (r : Request) (i : Instr) : Except Reject Instr :=
  if r.value = 0 then .ok i else .error (.operandTooWide r.op)

/-- The decoder (R36, R41, R49 step 1). It is total: every one of the 64 codes has a verdict, the 48 reserved ones `illegalOp`
(R42); no other mode or state takes part (R43). -/
def decode (r : Request) : Except Reject Instr :=
  match r.op.toNat with
  | 0x01 => valueForm 16 r fun v => .enc16be v r.buf
  | 0x02 => valueForm 32 r fun v => .enc32be v r.buf
  | 0x03 => valueForm 64 r fun v => .enc64be v r.buf
  | 0x05 => valueForm 16 r fun v => .enc16le v r.buf
  | 0x06 => valueForm 32 r fun v => .enc32le v r.buf
  | 0x07 => valueForm 64 r fun v => .enc64le v r.buf
  | 0x09 => viewForm r (.dec16be r.buf)
  | 0x0A => viewForm r (.dec32be r.buf)
  | 0x0B => viewForm r (.dec64be r.buf)
  | 0x0D => viewForm r (.dec16le r.buf)
  | 0x0E => viewForm r (.dec32le r.buf)
  | 0x0F => viewForm r (.dec64le r.buf)
  | 0x10 => valueForm 64 r fun a => .encaddr a r.buf
  | 0x11 => valueForm 64 r fun p => .encaddrp p r.buf
  | 0x18 => viewForm r (.decaddr r.buf)
  | 0x20 => checksumForm r (.crc32 r.buf r.length r.startValue)
  | _ => .error (.illegalOp r.op)

/-- The operation-select code of an operation (R41). -/
def Instr.code : Instr → BitVec 6
  | .enc16be _ _ => OpCode.enc16be
  | .enc32be _ _ => OpCode.enc32be
  | .enc64be _ _ => OpCode.enc64be
  | .enc16le _ _ => OpCode.enc16le
  | .enc32le _ _ => OpCode.enc32le
  | .enc64le _ _ => OpCode.enc64le
  | .dec16be _ => OpCode.dec16be
  | .dec32be _ => OpCode.dec32be
  | .dec64be _ => OpCode.dec64be
  | .dec16le _ => OpCode.dec16le
  | .dec32le _ => OpCode.dec32le
  | .dec64le _ => OpCode.dec64le
  | .encaddr _ _ => OpCode.encaddr
  | .encaddrp _ _ => OpCode.encaddrp
  | .decaddr _ => OpCode.decaddr
  | .crc32 _ _ _ => OpCode.crc32

/-- What an operation's request holds on the `value` port (R36): the operand with zero bits above it. -/
def Instr.valuePort : Instr → BitVec 64
  | .enc16be value _ => value.setWidth 64
  | .enc32be value _ => value.setWidth 64
  | .enc64be value _ => value
  | .enc16le value _ => value.setWidth 64
  | .enc32le value _ => value.setWidth 64
  | .enc64le value _ => value
  | .dec16be _ => 0
  | .dec32be _ => 0
  | .dec64be _ => 0
  | .dec16le _ => 0
  | .dec32le _ => 0
  | .dec64le _ => 0
  | .encaddr address _ => address
  | .encaddrp pointer _ => pointer
  | .decaddr _ => 0
  | .crc32 _ _ _ => 0

/-- The view an operation is handed (R21: each operation is handed one). -/
def Instr.view : Instr → View
  | .enc16be _ buf => buf
  | .enc32be _ buf => buf
  | .enc64be _ buf => buf
  | .enc16le _ buf => buf
  | .enc32le _ buf => buf
  | .enc64le _ buf => buf
  | .dec16be buf => buf
  | .dec32be buf => buf
  | .dec64be buf => buf
  | .dec16le buf => buf
  | .dec32le buf => buf
  | .dec64le buf => buf
  | .encaddr _ buf => buf
  | .encaddrp _ buf => buf
  | .decaddr buf => buf
  | .crc32 buf _ _ => buf

/-- What an operation's request holds on the `length` port (R36: CRC32 alone has one). -/
def Instr.lengthPort : Instr → Nat
  | .crc32 _ length _ => length
  | _ => 0

/-- What an operation's request holds on the `start_value` port (R36: CRC32 alone has one). -/
def Instr.seedPort : Instr → BitVec 32
  | .crc32 _ _ startValue => startValue
  | _ => 0

/-- The request of an operation (R36): its code and its operands, every port it does not use zero. -/
def encode (i : Instr) : Request :=
  { op := i.code, value := i.valuePort, buf := i.view, length := i.lengthPort, startValue := i.seedPort }

/-- The request whose code is the low bits of the table word `w` and whose operands are all zero. A capacity is no bit of a
request (D9), so the view is one of 8 bytes, the most a fixed-width operation needs (R114). -/
def tableRequest (nbits w : Nat) : Request :=
  { op := BitVec.ofNat 6 (w % 2 ^ nbits), value := 0, buf := { base := 0, cap := 8 }, length := 0, startValue := 0 }

/-- The operation the decoder reads from a word of the operation table, all operands zero. Bits above the code's six are no
part of any code, so a word that has one is none. -/
def decodeTableWord (nbits w : Nat) : Option Instr :=
  if w % 2 ^ nbits < 64 then (decode (tableRequest nbits w)).toOption else none

end Sys2Proof
end

