-- ==== Sys2Proof/Machine/State.lean ====
section
/-! DEFINITION. The state of the model (spec/10_state.md R10 to R19): the constant `W`, the caller's buffers and the fault mark,
and beside them what a step of a closed machine takes from the caller and gives to it. -/

namespace Sys2Proof.Machine

/-- The caller's buffers as one store of octets (R19, R20, D9): a list of (address, byte) pairs, addresses strictly rising, no
entry equal to what an unlisted address reads as (`Memory.wf`). -/
abbrev Memory := List Host.Cell

/-- An operation in flight on another instance of the block (R106), with all its operands (its request is `encode instr`), and how
many of the caller's coming acts fall inside it. -/
structure Flight where
  instr : Instr
  left  : Nat
  deriving DecidableEq, Repr

/-- Who meets an operation in flight: another operation, by its request (R99), or the caller's own write (R118). -/
inductive Party where
  | operation (r : Request)
  | callerStore (base : Nat) (bytes : List Byte)
  deriving DecidableEq, Repr

/-- The response record of an operation (R36, R11). -/
inductive Response where
  /-- An EndianCodec encode: completion and nothing else. -/
  | done
  /-- A 16-bit EndianCodec decode. -/
  | value16 (value : BitVec 16)
  /-- A 32-bit EndianCodec decode. -/
  | value32 (value : BitVec 32)
  /-- A 64-bit EndianCodec decode. -/
  | value64 (value : BitVec 64)
  /-- ENCADDR, ENCADDRP: the width tag (R74). -/
  | width (width : BitVec 4)
  /-- DECADDR: the address, zero extended from `8*W` bits (R73, D6), and the width tag. -/
  | address (address : BitVec 64) (width : BitVec 4)
  /-- CRC32. -/
  | crc (crc : BitVec 32)
  deriving DecidableEq, Repr

/-- One act of the caller, the only agent outside the block (R105, R124). Log entries 3 and 4. -/
inductive CallerAct where
  /-- A request is issued; the next `overlap` acts of the script fall inside the operation (0 for a single caller, R31). -/
  | request (r : Request) (overlap : Nat)
  /-- The caller writes bytes of its own buffer (R20; script P1 step 4). -/
  | store (base : Nat) (bytes : List Byte)
  /-- The block is reset (R110). -/
  | reset
  deriving DecidableEq, Repr

/-- The model's faults (R99, R108). Both say that the caller broke its contract and nothing of what the hardware then does
(R109); stopping is safe. -/
inductive Fault where
  /-- Raised by the handling of a request whose code is one of the 48 reserved ones (R98). Safe: no operation is selected. -/
  | illegalOp (op : BitVec 6)
  /-- Raised by every operation that needs `needed` bytes and is handed a view of `cap < needed` (R97). Safe: undefined on the
  hardware, which goes on. -/
  | capacityViolation (op : BitVec 6) (needed cap : Nat)
  deriving DecidableEq, Repr

/-- What the model refuses. -/
inductive Refusal where
  /-- Raised by the dispatch for an operation that has no meaning yet; no arm does. Safe. -/
  | notModelled (mnemonic : String)
  /-- Raised where a request carries a bit its operand's port does not have (R71, R99, D6). Safe: the hardware has no such bit. -/
  | operandTooWide (op : BitVec 6)
  /-- Raised where an operation or a caller's own write conflicts with an operation in flight (R106 `RaceRefused`, R118).
  Records the two requests whole (R99), `mine` the later one. Safe: the source promises nothing of such a schedule. -/
  | raceRefused (mine : Party) (other : Request)
  /-- Raised where a reset falls inside an operation in flight (R111, U15). Safe: the spec defines no such step. -/
  | resetMidOperation
  deriving DecidableEq, Repr

/-- The model's mark of a stopped run (R19 (c), R97, R106). -/
inductive Stop where
  | fault (f : Fault)
  | refused (r : Refusal)
  deriving DecidableEq, Repr

/-- The state. The block itself keeps none (R10); R19 gives (a) `w`, (b) `store`, (c) `mark`. `script` (with each request's view),
`inFlight` and `responses` are the caller's side, held here because a step takes no other input and gives no other output. -/
structure State where
  /-- The constant `W` (R14). No step changes it. -/
  w         : PtrWidth
  /-- The caller's buffers (R20). -/
  store     : Memory
  /-- The caller's acts still to come, the next one first (R47, R123). -/
  script    : List CallerAct
  /-- The operations the caller's next act falls inside (R106); empty for a single caller. -/
  inFlight  : List Flight
  /-- The results delivered so far, the newest first (R123). -/
  responses : List Response
  /-- The fault mark (R97): clear at the start of a run, never cleared by a step. -/
  mark      : Option Stop
  deriving DecidableEq, Repr

/-- After reset on a block built with pointer width `w`: nothing is held and the mark is clear (R18, R110). Log entries 2 to 4. -/
def State.resetWith (w : PtrWidth) : State :=
  { w := w, store := [], script := [], inFlight := [], responses := [], mark := none }

/-- After reset, `W` being the value the build fixed (R18). Log entry 1. -/
def State.reset : State := State.resetWith Config.pointerWidth

end Sys2Proof.Machine
end

