-- ==== Sys2Proof/Machine/Ops.lean ====
section
/-! DEFINITION. The named operations over the store, the race condition, and what a stop does to the state. -/

namespace Sys2Proof.Machine

/-! ## The store (spec/00_scope.md R9 `MemRead`, `MemWrite`; spec/20_memory.md R20, R21) -/

/-- What an octet that nothing has written reads as. DESIGN CHOICE, unsafe: log entry 2. -/
def Memory.unlisted : Byte := 0x00#8

/-- The canonical form: addresses strictly rising, no entry that says what an unlisted address reads as. -/
abbrev Memory.wf (m : Memory) : Prop :=
  m.Pairwise (fun c d => c.1 < d.1) ∧ ∀ c ∈ m, c.2 ≠ Memory.unlisted

/-- The octet at address `a`; reading has no side effect (R29). -/
def Memory.read : Memory → Nat → Byte
  | [], _ => Memory.unlisted
  | (k, b) :: rest, a => if k = a then b else Memory.read rest a

/-- The store with the octet `b` at address `a`, in canonical form. -/
def Memory.write : Memory → Nat → Byte → Memory
  | [], a, b => if b = Memory.unlisted then [] else [(a, b)]
  | (k, c) :: rest, a, b =>
    if a < k then (if b = Memory.unlisted then (k, c) :: rest else (a, b) :: (k, c) :: rest)
    else if a = k then (if b = Memory.unlisted then rest else (a, b) :: rest)
    else (k, c) :: Memory.write rest a b

/-- `MemRead` of `n` octets from `base`, lowest first (R9). -/
def Memory.readBytes (m : Memory) (base n : Nat) : List Byte :=
  (List.range n).map fun k => m.read (base + k)

/-- `MemWrite` of the octets `bytes` from `base`, lowest first (R9). -/
def Memory.writeBytes : Memory → Nat → List Byte → Memory
  | m, _, [] => m
  | m, base, b :: bytes => Memory.writeBytes (m.write base b) (base + 1) bytes

/-! ## State updates -/

/-- The state with `bytes` written from `base`. -/
def State.put (s : State) (base : Nat) (bytes : List Byte) : State :=
  { s with store := s.store.writeBytes base bytes }

/-- The state with the response `r` delivered to the caller. -/
def State.deliver (s : State) (r : Response) : State :=
  { s with responses := r :: s.responses }

/-- The state with the caller's acts still to come. -/
def State.withScript (s : State) (script : List CallerAct) : State :=
  { s with script := script }

/-! ## Operations in flight together (spec/60_exceptions.md R106, spec/20_memory.md R32) -/

/-- Whether an operation reads its bytes or writes them (R27). -/
inductive Access where
  | read
  | write
  deriving DecidableEq, Repr

/-- The bytes something touches, `base .. base+len-1`, and whether it reads or writes them (R27). -/
structure Footprint where
  access : Access
  base   : Nat
  len    : Nat
  deriving DecidableEq, Repr

/-- Some byte lies in both footprints. -/
def Footprint.overlaps (f g : Footprint) : Bool :=
  decide (max f.base g.base < min (f.base + f.len) (g.base + g.len))

/-- Two footprints conflict when some byte is written by one and written or read by the other (R106). -/
def Footprint.conflicts (f g : Footprint) : Bool :=
  (decide (f.access = .write) || decide (g.access = .write)) && f.overlaps g

/-- One act of the caller has passed: an operation in flight stays so while an act still to come falls inside it. -/
def State.tick (s : State) : State :=
  { s with inFlight := s.inFlight.filterMap fun g => if g.left ≤ 1 then none else some { g with left := g.left - 1 } }

/-- The operation `i` is still in flight during the next `overlap` acts. -/
def State.launch (s : State) (i : Instr) (overlap : Nat) : State :=
  { s with inFlight := if overlap = 0 then s.inFlight else { instr := i, left := overlap } :: s.inFlight }

/-! ## Stopping (R97, R98, R103, R104, R106)

The block takes no exception and returns from none (R95, R103, R104): nothing is saved and control goes nowhere. What a model
fault does to the state is the mark alone. -/

/-- The state with the mark set; a mark already there stays (R97: never cleared). -/
def State.stopped (s : State) (x : Stop) : State :=
  { s with mark := some (s.mark.getD x) }

/-- The outcome a stop stands for. -/
def Stop.outcome : Stop → Host.Outcome State Fault Refusal
  | .fault f => .fault f
  | .refused r => .refused r

/-- The state after an outcome: a stop leaves everything but the mark as the preceding acts left it (R103, R108). -/
def State.after (s : State) : Host.Outcome State Fault Refusal → State
  | .next t => t
  | .fault f => s.stopped (.fault f)
  | .refused r => s.stopped (.refused r)

end Sys2Proof.Machine
end

