-- ==== Sys2Proof/Machine/Operands.lean ====
section
/-! DEFINITION. Operand assembly: a value cut into bytes, bytes placed side by side into a value (spec/30_encoding.md R39, R40;
spec/20_memory.md R22, R23, R24), and what each operation touches (R27). There are no flags (spec/10_state.md R13). -/

namespace Sys2Proof.Machine

/-- `byte(v, k) = v[8*k+7 : 8*k]` (R7). -/
def byteAt {n : Nat} (v : BitVec n) (k : Nat) : Byte := v.extractLsb' (8 * k) 8

/-- `BE_n(v)`: the byte at offset `k` is `byte(v, n-1-k)` (R22). -/
def beBytes {m : Nat} (n : Nat) (v : BitVec m) : List Byte := (List.range n).map fun k => byteAt v (n - 1 - k)

/-- `LE_n(v)`: the byte at offset `k` is `byte(v, k)` (R23). -/
def leBytes {m : Nat} (n : Nat) (v : BitVec m) : List Byte := (List.range n).map fun k => byteAt v k

/-- The value a byte sequence denotes in little-endian order, the sum of `b_k * 2^(8*k)` (R23). -/
def leValue : List Byte → Nat
  | [] => 0
  | b :: rest => b.toNat + 256 * leValue rest

/-- The value a byte sequence denotes in big-endian order, the sum of `b_k * 2^(8*(n-1-k))` (R22). -/
def beValue : List Byte → Nat
  | [] => 0
  | b :: rest => b.toNat * 256 ^ rest.length + beValue rest

/-- The width tag: a 4-bit unsigned number holding `W` (R74, D8). -/
def widthTag (w : PtrWidth) : BitVec 4 := BitVec.ofNat 4 w.bytes

/-- The integer representation of a native pointer: its bit pattern read as unsigned (R72, D7). Log entry 7. -/
def pointerToAddress (pointer : BitVec 64) : BitVec 64 := pointer

/-- Whether an operation writes its bytes or reads them (R27). -/
def accessOf : Instr → Access
  | .enc16be _ _ => .write
  | .enc32be _ _ => .write
  | .enc64be _ _ => .write
  | .enc16le _ _ => .write
  | .enc32le _ _ => .write
  | .enc64le _ _ => .write
  | .dec16be _ => .read
  | .dec32be _ => .read
  | .dec64be _ => .read
  | .dec16le _ => .read
  | .dec32le _ => .read
  | .dec64le _ => .read
  | .encaddr _ _ => .write
  | .encaddrp _ _ => .write
  | .decaddr _ => .read
  | .crc32 _ _ _ => .read

/-- How many bytes an operation touches (R27; R49 step 2). -/
def bytesNeeded (w : PtrWidth) : Instr → Nat
  | .enc16be _ _ => 2
  | .enc32be _ _ => 4
  | .enc64be _ _ => 8
  | .enc16le _ _ => 2
  | .enc32le _ _ => 4
  | .enc64le _ _ => 8
  | .dec16be _ => 2
  | .dec32be _ => 4
  | .dec64be _ => 8
  | .dec16le _ => 2
  | .dec32le _ => 4
  | .dec64le _ => 8
  | .encaddr _ _ => w.bytes
  | .encaddrp _ _ => w.bytes
  | .decaddr _ => w.bytes
  | .crc32 _ length _ => length

/-- The bytes an operation touches, all at offsets 0 upward of its view (R21, R27). -/
def footprintOf (w : PtrWidth) (i : Instr) : Footprint :=
  { access := accessOf i, base := i.view.base, len := bytesNeeded w i }

/-- The first operation in flight that conflicts with `f`, if there is one. -/
def State.conflict (s : State) (f : Footprint) : Option Flight :=
  s.inFlight.find? fun g => (footprintOf s.w g.instr).conflicts f

/-- Steps 2 to 4 of the handling of a request (R49): the capacity check, before any byte is read or written (R97); the refusal
of an operation that conflicts with one in flight (R106); then the operation, as one transition to `effect` (R29). -/
def perform (i : Instr) (s effect : State) : Host.Outcome State Fault Refusal :=
  if bytesNeeded s.w i ≤ i.view.cap then
    match s.conflict (footprintOf s.w i) with
    | none => .next effect
    | some g => .refused (.raceRefused (.operation (encode i)) (encode g.instr))
  else .fault (.capacityViolation i.code (bytesNeeded s.w i) i.view.cap)

/-- An encode: the bytes go to offsets 0 upward of the view, and the response is delivered (R39). -/
def performEncode (i : Instr) (bytes : List Byte) (r : Response) (s : State) : Host.Outcome State Fault Refusal :=
  perform i s ((s.put i.view.base bytes).deliver r)

/-- An operation that reads: the response is made of the bytes at offsets 0 upward of the view (R40). -/
def performRead (i : Instr) (respond : List Byte → Response) (s : State) : Host.Outcome State Fault Refusal :=
  perform i s (s.deliver (respond (s.store.readBytes i.view.base (bytesNeeded s.w i))))

end Sys2Proof.Machine
end

