-- ==== Sys2Proof/Machine/AddressCodec.lean ====
section
/-! DEFINITION. AddressCodec (spec/41_address_codec.md R70 to R79): `W` bytes, always most-significant byte first. -/

namespace Sys2Proof.Machine

/-- The encoding logic the two encode entry points share (R71, R72): an operand with a bit at or above `8*W` is refused (D6);
otherwise `BE_W(address)` is written and the width tag returned. -/
def encodeAddress (i : Instr) (address : BitVec 64) (s : State) : Host.Outcome State Fault Refusal :=
  if s.w.fits address then performEncode i (beBytes s.w.bytes address) (.width (widthTag s.w)) s
  else .refused (.operandTooWide i.code)

/-- ENCADDR (R71). -/
def execEncaddr (address : BitVec 64) (buf : View) (s : State) : Host.Outcome State Fault Refusal :=
  encodeAddress (.encaddr address buf) address s

/-- ENCADDRP (R72). -/
def execEncaddrp (pointer : BitVec 64) (buf : View) (s : State) : Host.Outcome State Fault Refusal :=
  encodeAddress (.encaddrp pointer buf) (pointerToAddress pointer) s

/-- DECADDR (R73): the address zero extended to the carrier (D6), and the width tag. -/
def execDecaddr (buf : View) (s : State) : Host.Outcome State Fault Refusal :=
  performRead (.decaddr buf) (fun bytes => .address (BitVec.ofNat 64 (beValue bytes)) (widthTag s.w)) s

end Sys2Proof.Machine
end

