-- ==== Sys2Proof/Machine/EndianDecode.lean ====
section
/-! DEFINITION. EndianCodec, the six decode operations (spec/40_endian_codec.md R58 to R63). -/

namespace Sys2Proof.Machine

/-- DEC16BE (R58). -/
def execDec16be (buf : View) (s : State) : Host.Outcome State Fault Refusal :=
  performRead (.dec16be buf) (fun bytes => .value16 (BitVec.ofNat 16 (beValue bytes))) s

/-- DEC32BE (R59). -/
def execDec32be (buf : View) (s : State) : Host.Outcome State Fault Refusal :=
  performRead (.dec32be buf) (fun bytes => .value32 (BitVec.ofNat 32 (beValue bytes))) s

/-- DEC64BE (R60). -/
def execDec64be (buf : View) (s : State) : Host.Outcome State Fault Refusal :=
  performRead (.dec64be buf) (fun bytes => .value64 (BitVec.ofNat 64 (beValue bytes))) s

/-- DEC16LE (R61). -/
def execDec16le (buf : View) (s : State) : Host.Outcome State Fault Refusal :=
  performRead (.dec16le buf) (fun bytes => .value16 (BitVec.ofNat 16 (leValue bytes))) s

/-- DEC32LE (R62). -/
def execDec32le (buf : View) (s : State) : Host.Outcome State Fault Refusal :=
  performRead (.dec32le buf) (fun bytes => .value32 (BitVec.ofNat 32 (leValue bytes))) s

/-- DEC64LE (R63). -/
def execDec64le (buf : View) (s : State) : Host.Outcome State Fault Refusal :=
  performRead (.dec64le buf) (fun bytes => .value64 (BitVec.ofNat 64 (leValue bytes))) s

end Sys2Proof.Machine
end

