-- ==== Sys2Proof/Machine/EndianEncode.lean ====
section
/-! DEFINITION. EndianCodec, the six encode operations (spec/40_endian_codec.md R50 to R57). -/

namespace Sys2Proof.Machine

/-- ENC16BE (R52). -/
def execEnc16be (value : BitVec 16) (buf : View) (s : State) : Host.Outcome State Fault Refusal :=
  performEncode (.enc16be value buf) (beBytes 2 value) .done s

/-- ENC32BE (R53). -/
def execEnc32be (value : BitVec 32) (buf : View) (s : State) : Host.Outcome State Fault Refusal :=
  performEncode (.enc32be value buf) (beBytes 4 value) .done s

/-- ENC64BE (R54). -/
def execEnc64be (value : BitVec 64) (buf : View) (s : State) : Host.Outcome State Fault Refusal :=
  performEncode (.enc64be value buf) (beBytes 8 value) .done s

/-- ENC16LE (R55). -/
def execEnc16le (value : BitVec 16) (buf : View) (s : State) : Host.Outcome State Fault Refusal :=
  performEncode (.enc16le value buf) (leBytes 2 value) .done s

/-- ENC32LE (R56). -/
def execEnc32le (value : BitVec 32) (buf : View) (s : State) : Host.Outcome State Fault Refusal :=
  performEncode (.enc32le value buf) (leBytes 4 value) .done s

/-- ENC64LE (R57). -/
def execEnc64le (value : BitVec 64) (buf : View) (s : State) : Host.Outcome State Fault Refusal :=
  performEncode (.enc64le value buf) (leBytes 8 value) .done s

end Sys2Proof.Machine
end

