-- ==== Sys2Proof/Machine/FrameChecksum.lean ====
section
/-! DEFINITION. FrameChecksum, the CRC-32 generator (spec/42_frame_checksum.md R80 to R94). -/

namespace Sys2Proof.Machine

/-- The polynomial constant (R80). -/
def crcPoly : BitVec 32 := 0xEDB88320#32

/-- One of the 8 iterations (R81): the test looks at bit 0 before the shift; the shift is logical. -/
def crcBitStep (acc : BitVec 32) : BitVec 32 :=
  if acc.getLsbD 0 then (acc >>> 1) ^^^ crcPoly else acc >>> 1

/-- One byte (R82): exclusive-or into bits 7:0, then exactly 8 bit steps. -/
def crcByteStep (acc : BitVec 32) (b : Byte) : BitVec 32 :=
  crcBitStep (crcBitStep (crcBitStep (crcBitStep (crcBitStep (crcBitStep (crcBitStep (crcBitStep
    (acc ^^^ b.setWidth 32))))))))

/-- The checksum of a byte sequence from a seed (R83): the accumulator starts as the complement of `startValue`, takes the bytes in
increasing offset order (R25), and is complemented at the end. It exists inside this function only (R17). -/
def crc32Of (startValue : BitVec 32) (bytes : List Byte) : BitVec 32 :=
  ~~~ (bytes.foldl crcByteStep (~~~ startValue))

/-- CRC32 (R83). -/
def execCrc32 (buf : View) (length : Nat) (startValue : BitVec 32) (s : State) : Host.Outcome State Fault Refusal :=
  performRead (.crc32 buf length startValue) (fun bytes => .crc (crc32Of startValue bytes)) s

end Sys2Proof.Machine
end

