-- ==== Sys2Proof/Machine/Dispatch.lean ====
section
/-! DEFINITION. One arm per operation of spec/30_encoding.md R41. -/

namespace Sys2Proof.Machine

def exec (i : Instr) (s : State) : Host.Outcome State Fault Refusal :=
  match i with
  | .enc16be value buf => Sys2Proof.Machine.execEnc16be value buf s
  | .enc32be value buf => Sys2Proof.Machine.execEnc32be value buf s
  | .enc64be value buf => Sys2Proof.Machine.execEnc64be value buf s
  | .enc16le value buf => Sys2Proof.Machine.execEnc16le value buf s
  | .enc32le value buf => Sys2Proof.Machine.execEnc32le value buf s
  | .enc64le value buf => Sys2Proof.Machine.execEnc64le value buf s
  | .dec16be buf => Sys2Proof.Machine.execDec16be buf s
  | .dec32be buf => Sys2Proof.Machine.execDec32be buf s
  | .dec64be buf => Sys2Proof.Machine.execDec64be buf s
  | .dec16le buf => Sys2Proof.Machine.execDec16le buf s
  | .dec32le buf => Sys2Proof.Machine.execDec32le buf s
  | .dec64le buf => Sys2Proof.Machine.execDec64le buf s
  | .encaddr address buf => Sys2Proof.Machine.execEncaddr address buf s
  | .encaddrp pointer buf => Sys2Proof.Machine.execEncaddrp pointer buf s
  | .decaddr buf => Sys2Proof.Machine.execDecaddr buf s
  | .crc32 buf length startValue => Sys2Proof.Machine.execCrc32 buf length startValue s

end Sys2Proof.Machine
end

