-- ==== Sys2Proof/Machine/Caller.lean ====
section
/-! DEFINITION. What one act of the caller does to the machine: a request (spec/30_encoding.md R49), the caller's own write
(spec/20_memory.md R20), a reset (spec/70_reset_and_hazards.md R110, R111). -/

namespace Sys2Proof.Machine

/-- The outcome of a request the decoder rejects (R98; D6, R99). -/
def rejected : Reject → Host.Outcome State Fault Refusal
  | .illegalOp op => .fault (.illegalOp op)
  | .operandTooWide op => .refused (.operandTooWide op)

/-- A request: decoded first, then performed (R49, R102). The operation is one transition (R29); during the next `overlap` acts it
still counts as in flight (R106). -/
def issue (r : Request) (overlap : Nat) (s : State) : Host.Outcome State Fault Refusal :=
  match decode r with
  | .error e => rejected e
  | .ok i =>
    match exec i s with
    | .next t => .next (t.tick.launch i overlap)
    | .fault f => .fault f
    | .refused x => .refused x

/-- The caller writes its own buffer between operations (R20, R124); it must not touch a byte an operation in flight reads or
writes (R115, R118). -/
def callerStore (base : Nat) (bytes : List Byte) (s : State) : Host.Outcome State Fault Refusal :=
  match s.conflict { access := .write, base := base, len := bytes.length } with
  | none => .next (s.put base bytes).tick
  | some g => .refused (.raceRefused (.callerStore base bytes) (encode g.instr))

/-- A reset has no architectural effect (R110): `W` stays, no buffer byte is touched, results already delivered are the caller's
(R18). It falls between operations, never inside one (R111). -/
def resetBlock (s : State) : Host.Outcome State Fault Refusal :=
  if s.inFlight = [] then .next s else .refused .resetMidOperation

/-- One act of the caller. -/
def act : CallerAct → State → Host.Outcome State Fault Refusal
  | .request r overlap, s => issue r overlap s
  | .store base bytes, s => callerStore base bytes s
  | .reset, s => resetBlock s

/-- The machine at rest with nothing asked of it: the block waits, and keeps nothing (R10, R110). Log entry 3.
An overlap that reaches past the last act falls on no act: idling does not count it down. DESIGN CHOICE, log entry 10. -/
def idle (s : State) : Host.Outcome State Fault Refusal := .next s

/-- The caller's next act, taken off the script; a marked run does not go on (R97, R104). -/
def advance (s : State) : Host.Outcome State Fault Refusal :=
  match s.mark with
  | some x => x.outcome
  | none =>
    match s.script with
    | [] => idle s
    | a :: rest => act a (s.withScript rest)

/-- The state with one request, a word of the operation table, put in front of the script, and the run unmarked. -/
def present (s : State) (r : Request) : State :=
  { s with script := .request r 0 :: s.script, mark := none }

end Sys2Proof.Machine
end

