-- ==== Sys2Proof/Machine/Step.lean ====
section
/-! DEFINITION. One step of the machine: the caller's next act (spec/30_encoding.md R49, spec/20_memory.md R29). -/

namespace Sys2Proof.Machine

def step (s : State) : Host.Outcome State Fault Refusal := advance s

/-- The state whose next step handles the request of the table word `w`, all operands zero (`tableRequest`). It stands for the
caller's issuing that request at the start of a run: log entry 3. -/
def State.withFetchWord (s : State) (nbits w : Nat) : State := present s (tableRequest nbits w)

end Sys2Proof.Machine
end

