-- ==== Sys2Proof/WellFormed.lean ====
section
/-! DEFINITION. Which operations are well formed on a block of pointer width `W` (spec/41_address_codec.md R71, D6). -/

namespace Sys2Proof

/-- An address or pointer operand has exactly `8*W` bits (R11, R71, R72); every other operand has the width its type gives it. -/
def Instr.wellFormed (w : PtrWidth) : Instr → Bool
  | .enc16be _ _ => true
  | .enc32be _ _ => true
  | .enc64be _ _ => true
  | .enc16le _ _ => true
  | .enc32le _ _ => true
  | .enc64le _ _ => true
  | .dec16be _ => true
  | .dec32be _ => true
  | .dec64be _ => true
  | .dec16le _ => true
  | .dec32le _ => true
  | .dec64le _ => true
  | .encaddr address _ => w.fits address
  | .encaddrp pointer _ => w.fits pointer
  | .decaddr _ => true
  | .crc32 _ _ _ => true

end Sys2Proof
end

