-- ==== Sys2Proof/Safety.lean ====
section
/-! DEFINITION. What counts as a safe run: the caller's contract (spec/70_reset_and_hazards.md R114, R115, R124) and the end of a run
(R123). -/

namespace Sys2Proof.Machine

/-- Some byte is written by one of the two and written or read by the other (R106), said of the bytes themselves. -/
def Footprint.clash (f g : Footprint) : Prop :=
  (f.access = .write ∨ g.access = .write) ∧
    ∃ a, (f.base ≤ a ∧ a < f.base + f.len) ∧ (g.base ≤ a ∧ a < g.base + g.len)

/-- No operation in flight has a byte in common with the `n` bytes from `base`, accessed as `acc` says, that either of the two
writes (R106, R115). -/
def State.clearFor (s : State) (acc : Access) (base n : Nat) : Prop :=
  ∀ g ∈ s.inFlight, ¬ (footprintOf s.w g.instr).clash { access := acc, base := base, len := n }

/-- The caller keeps its contract for the operation `i` in the state `s`: the operand fits its port (D6), the view is long enough
(R114), and nothing in flight conflicts (R115). -/
def State.admits (s : State) (i : Instr) : Prop :=
  i.wellFormed s.w = true ∧ bytesNeeded s.w i ≤ i.view.cap ∧ s.clearFor (accessOf i) i.view.base (bytesNeeded s.w i)

/-- `n` acts of the caller, a stop recorded in the mark (R97) and nothing done after it (R104). -/
def State.runFor : Nat → State → State
  | 0, s => s
  | n + 1, s => State.runFor n (s.after (step s))

/-- A run has come to its end without a stop: no act is left and no fault or refused race was recorded (R123).
Every response of the script has then been delivered. `inFlight` need not be empty: an overlap that reaches past the last act falls on
no act. DESIGN CHOICE, log entry 10. -/
def State.finished (s : State) : Prop := s.script = [] ∧ s.mark = none

end Sys2Proof.Machine
end

