-- ==== Sys2Proof/Certificates/Slice0/Obligations.lean ====
section
/-! DEFINITION. The statements for the provers, from the numbered rules of spec/. -/

open Sys2Proof Sys2Proof.Machine

namespace Sys2Proof.Claims

/-! ## Forms that several statements share -/

/-- What an encode rule says of the operation `mk`, on a block of width `w`: its request has the code `op` and decodes to it; a view of fewer
bytes than `lanes` is the fault `CapacityViolation`; otherwise, if nothing in flight conflicts, it completes, the byte at offset `k` is the
`k`-th of `lanes`, every other byte of the store and every other part of the state is as before, and the response is `r`. -/
def Encodes (w : PtrWidth) (mk : View → Instr) (op : BitVec 6) (lanes : List Byte) (r : Response) : Prop :=
  ∀ (buf : View) (s : State), s.w = w → s.store.wf →
    (encode (mk buf)).op = op ∧ decode (encode (mk buf)) = .ok (mk buf) ∧
    (buf.cap < lanes.length → exec (mk buf) s = .fault (.capacityViolation op lanes.length buf.cap)) ∧
    (lanes.length ≤ buf.cap → s.clearFor .write buf.base lanes.length →
      ∃ m, exec (mk buf) s = .next { s with store := m, responses := r :: s.responses } ∧ m.wf ∧
        (∀ k (h : k < lanes.length), m.read (buf.base + k) = lanes[k]) ∧
        ∀ a, a < buf.base ∨ buf.base + lanes.length ≤ a → m.read a = s.store.read a)

/-- What a decode rule says of the operation `mk`, on a block of width `w`: its request has the code `op` and decodes to it; a view of fewer
than `n` bytes is the fault `CapacityViolation`; otherwise, if nothing in flight conflicts, it completes, the response is `r` of the bytes at
the offsets of the view, and nothing else of the state changes. -/
def Reads (w : PtrWidth) (mk : View → Instr) (op : BitVec 6) (n : Nat) (r : (Nat → Byte) → Response) : Prop :=
  ∀ (buf : View) (s : State), s.w = w →
    (encode (mk buf)).op = op ∧ decode (encode (mk buf)) = .ok (mk buf) ∧
    (buf.cap < n → exec (mk buf) s = .fault (.capacityViolation op n buf.cap)) ∧
    (n ≤ buf.cap → s.clearFor .read buf.base n →
      exec (mk buf) s =
        .next { s with responses := r (fun k => s.store.read (buf.base + k)) :: s.responses })

/-- The layout of an address field for each `W` (R77) and the width tag, for the encode entry point `mk` of code `op`; and an operand with a
bit at or above `8*W` is refused (D6). -/
def AddressEncodes (mk : BitVec 64 → View → Instr) (op : BitVec 6) : Prop :=
  (∀ a : BitVec 8, Encodes .w1 (mk (a.setWidth 64)) op [a] (.width 0b0001#4)) ∧
  (∀ a : BitVec 16, Encodes .w2 (mk (a.setWidth 64)) op [a.extractLsb 15 8, a.extractLsb 7 0] (.width 0b0010#4)) ∧
  (∀ a : BitVec 32, Encodes .w4 (mk (a.setWidth 64)) op
    [a.extractLsb 31 24, a.extractLsb 23 16, a.extractLsb 15 8, a.extractLsb 7 0] (.width 0b0100#4)) ∧
  (∀ a : BitVec 64, Encodes .w8 (mk a) op
    [a.extractLsb 63 56, a.extractLsb 55 48, a.extractLsb 47 40, a.extractLsb 39 32,
     a.extractLsb 31 24, a.extractLsb 23 16, a.extractLsb 15 8, a.extractLsb 7 0] (.width 0b1000#4)) ∧
  ∀ (a : BitVec 64) (buf : View) (s : State), 2 ^ (8 * s.w.bytes) ≤ a.toNat → exec (mk a buf) s = .refused (.operandTooWide op)

/-- Encode into a view, then decode from the same view: both complete and the value comes back. -/
def ComesBack {n : Nat} (enc : BitVec n → View → Instr) (dec : View → Instr) (bytes : Nat) (r : BitVec n → Response) : Prop :=
  ∀ (v : BitVec n) (buf : View) (s : State), s.store.wf → bytes ≤ buf.cap → s.clearFor .write buf.base bytes →
    ∃ t u, exec (enc v buf) s = .next t ∧ exec (dec buf) t = .next u ∧ u.responses.head? = some (r v)

/-- Decode a view, then encode the value returned into the same view: both complete and the store is unchanged. -/
def PutsBack {n : Nat} (enc : BitVec n → View → Instr) (dec : View → Instr) (bytes : Nat) (r : BitVec n → Response) : Prop :=
  ∀ (buf : View) (s : State), s.store.wf → bytes ≤ buf.cap → s.clearFor .write buf.base bytes →
    ∃ v t u, exec (dec buf) s = .next t ∧ t.responses = r v :: s.responses ∧ exec (enc v buf) t = .next u ∧ u.store = s.store

/-- The encode `be` and the encode `le` of one value into one view write each other's bytes in reverse order. -/
def MirrorEachOther {n : Nat} (be le : BitVec n → View → Instr) (bytes : Nat) : Prop :=
  ∀ (v : BitVec n) (buf : View) (s : State), s.store.wf → bytes ≤ buf.cap → s.clearFor .write buf.base bytes →
    ∃ t u, exec (be v buf) s = .next t ∧ exec (le v buf) s = .next u ∧
      ∀ k < bytes, t.store.read (buf.base + k) = u.store.read (buf.base + (bytes - 1 - k))

/-- `x` is `v` with its `bytes` bytes in reverse order. -/
def Reverses {n : Nat} (bytes : Nat) (v x : BitVec n) : Prop :=
  ∀ k < bytes, x.extractLsb' (8 * k) 8 = v.extractLsb' (8 * (bytes - 1 - k)) 8

/-- Encode with `enc`, then decode the same view with `dec` of the other order: the value returned is `v` with its bytes reversed. -/
def Swaps {n : Nat} (enc : BitVec n → View → Instr) (dec : View → Instr) (bytes : Nat) (r : BitVec n → Response) : Prop :=
  ∀ (v : BitVec n) (buf : View) (s : State), s.store.wf → bytes ≤ buf.cap → s.clearFor .write buf.base bytes →
    ∃ x t u, exec (enc v buf) s = .next t ∧ exec (dec buf) t = .next u ∧ u.responses.head? = some (r x) ∧ Reverses bytes v x

/-- The least and the greatest value of a width: `enc` writes bytes that are all 0x00, all 0xFF, and `dec` reads such bytes as that value. -/
def Boundaries {n : Nat} (enc : BitVec n → View → Instr) (dec : View → Instr) (op : BitVec 6) (bytes : Nat) (r : BitVec n → Response) : Prop :=
  (∀ w, Encodes w (enc 0) op (List.replicate bytes 0x00) .done ∧ Encodes w (enc (BitVec.allOnes n)) op (List.replicate bytes 0xFF) .done) ∧
  ∀ (buf : View) (s : State), bytes ≤ buf.cap → s.clearFor .read buf.base bytes →
    ((∀ k < bytes, s.store.read (buf.base + k) = 0x00) → exec (dec buf) s = .next { s with responses := r 0 :: s.responses }) ∧
    ((∀ k < bytes, s.store.read (buf.base + k) = 0xFF) →
      exec (dec buf) s = .next { s with responses := r (BitVec.allOnes n) :: s.responses })

/-- The outcome with `w` for the pointer width in a next state. -/
def withWidth (w : PtrWidth) : Host.Outcome State Fault Refusal → Host.Outcome State Fault Refusal
  | .next t => .next { t with w := w }
  | .fault f => .fault f
  | .refused x => .refused x

/-- The 48 reserved codes, as R42 lists them. -/
def ReservedCode (op : Nat) : Prop :=
  op = 0x00 ∨ op = 0x04 ∨ op = 0x08 ∨ op = 0x0C ∨ (0x12 ≤ op ∧ op ≤ 0x17) ∨ (0x19 ≤ op ∧ op ≤ 0x1F) ∨
    (0x21 ≤ op ∧ op ≤ 0x2F) ∨ (0x30 ≤ op ∧ op ≤ 0x3F)

/-- No two operations in flight together conflict. -/
def FlightsApart (s : State) : Prop := s.inFlight.Pairwise fun f g => ¬ (footprintOf s.w f.instr).clash (footprintOf s.w g.instr)

/-- A script of a single caller: nothing is in flight when an act begins, and no request leaves anything in flight. -/
def SingleCaller (s : State) : Prop :=
  s.inFlight = [] ∧ ∀ a ∈ s.script, ∀ r k, a = .request r k → k = 0

end Sys2Proof.Claims

open Sys2Proof.Claims

/-! ## Encoding of requests -/

/-- R41, on the words of the operation table: each of the 16 codes, with operands of zeros, decodes to its operation. The view of 8 bytes is
the model's (a capacity is no bit of a request, log entry 5). -/
def Obligations.TableCodesDecodeToTheirOperations : Prop :=
  decodeTableWord 8 0x01 = some (.enc16be 0 ⟨0, 8⟩) ∧ decodeTableWord 8 0x02 = some (.enc32be 0 ⟨0, 8⟩) ∧
  decodeTableWord 8 0x03 = some (.enc64be 0 ⟨0, 8⟩) ∧ decodeTableWord 8 0x05 = some (.enc16le 0 ⟨0, 8⟩) ∧
  decodeTableWord 8 0x06 = some (.enc32le 0 ⟨0, 8⟩) ∧ decodeTableWord 8 0x07 = some (.enc64le 0 ⟨0, 8⟩) ∧
  decodeTableWord 8 0x09 = some (.dec16be ⟨0, 8⟩) ∧ decodeTableWord 8 0x0A = some (.dec32be ⟨0, 8⟩) ∧
  decodeTableWord 8 0x0B = some (.dec64be ⟨0, 8⟩) ∧ decodeTableWord 8 0x0D = some (.dec16le ⟨0, 8⟩) ∧
  decodeTableWord 8 0x0E = some (.dec32le ⟨0, 8⟩) ∧ decodeTableWord 8 0x0F = some (.dec64le ⟨0, 8⟩) ∧
  decodeTableWord 8 0x10 = some (.encaddr 0 ⟨0, 8⟩) ∧ decodeTableWord 8 0x11 = some (.encaddrp 0 ⟨0, 8⟩) ∧
  decodeTableWord 8 0x18 = some (.decaddr ⟨0, 8⟩) ∧ decodeTableWord 8 0x20 = some (.crc32 ⟨0, 8⟩ 0 0)

/-- R98 (and R42, R49, R102): a request faults `IllegalOp` exactly when its code is one of the 48 reserved ones, whatever its view and
operands; what is left is the state before with the mark set. That the request which stopped stays on the script is the model's (log entry
8). -/
def Obligations.ReservedCodesFaultWhateverTheView : Prop :=
  ∀ (s : State) (r : Request) (k : Nat) (rest : List CallerAct), s.mark = none → s.script = .request r k :: rest →
    (step s = .fault (.illegalOp r.op) ↔ ReservedCode r.op.toNat) ∧
    (ReservedCode r.op.toNat → s.after (step s) = { s with mark := some (.fault (.illegalOp r.op)) })

/-- R36, R39: no bit of an operand is dropped by a request. -/
def Obligations.DecodeOfEncodeIsTheOperation : Prop :=
  ∀ i : Instr, decode (encode i) = .ok i

/-- R36, R43: a request the decoder accepts is the one request of its operation. That a port an operation does not use must be zero is the
model's choice, log entry 5. -/
def Obligations.AcceptedRequestsAreEncodings : Prop :=
  ∀ (r : Request) (i : Instr), decode r = .ok i → encode i = r

/-! ## A step -/

/-- R49: a step whose next act is a request runs the decoded operation. Around `exec` the step takes the request off the script, counts
down the operations in flight, and keeps the operation in flight for the acts that fall inside it (the model's own, log entries 3 and 4). -/
def Obligations.StepRunsTheDecodedOperation : Prop :=
  ∀ (s : State) (r : Request) (k : Nat) (rest : List CallerAct) (i : Instr),
    s.mark = none → s.script = .request r k :: rest → decode r = .ok i →
    step s = match exec i (s.withScript rest) with
      | .next t => .next (t.tick.launch i k)
      | .fault f => .fault f
      | .refused x => .refused x

/-- R31: for a single caller a step is the operation and nothing else, and the caller stays one; no race is ever refused. -/
def Obligations.SingleCallerStepsAreOperations : Prop :=
  ∀ s : State, s.mark = none → SingleCaller s →
    (∀ r k rest i, s.script = .request r k :: rest → decode r = .ok i → step s = exec i (s.withScript rest)) ∧
    (∀ t, step s = .next t → SingleCaller t) ∧
    ∀ f g, step s ≠ .refused (.raceRefused f g)

/-! ## EndianCodec -/

/-- R52. -/
def Obligations.Enc16beWritesMostSignificantByteFirst : Prop :=
  ∀ (w : PtrWidth) (value : BitVec 16),
    Encodes w (.enc16be value) 0b000001#6 [value.extractLsb 15 8, value.extractLsb 7 0] .done

/-- R53. -/
def Obligations.Enc32beWritesMostSignificantByteFirst : Prop :=
  ∀ (w : PtrWidth) (value : BitVec 32),
    Encodes w (.enc32be value) 0b000010#6
      [value.extractLsb 31 24, value.extractLsb 23 16, value.extractLsb 15 8, value.extractLsb 7 0] .done

/-- R54. -/
def Obligations.Enc64beWritesMostSignificantByteFirst : Prop :=
  ∀ (w : PtrWidth) (value : BitVec 64),
    Encodes w (.enc64be value) 0b000011#6
      [value.extractLsb 63 56, value.extractLsb 55 48, value.extractLsb 47 40, value.extractLsb 39 32,
       value.extractLsb 31 24, value.extractLsb 23 16, value.extractLsb 15 8, value.extractLsb 7 0] .done

/-- R55. -/
def Obligations.Enc16leWritesLeastSignificantByteFirst : Prop :=
  ∀ (w : PtrWidth) (value : BitVec 16),
    Encodes w (.enc16le value) 0b000101#6 [value.extractLsb 7 0, value.extractLsb 15 8] .done

/-- R56. -/
def Obligations.Enc32leWritesLeastSignificantByteFirst : Prop :=
  ∀ (w : PtrWidth) (value : BitVec 32),
    Encodes w (.enc32le value) 0b000110#6
      [value.extractLsb 7 0, value.extractLsb 15 8, value.extractLsb 23 16, value.extractLsb 31 24] .done

/-- R57. -/
def Obligations.Enc64leWritesLeastSignificantByteFirst : Prop :=
  ∀ (w : PtrWidth) (value : BitVec 64),
    Encodes w (.enc64le value) 0b000111#6
      [value.extractLsb 7 0, value.extractLsb 15 8, value.extractLsb 23 16, value.extractLsb 31 24,
       value.extractLsb 39 32, value.extractLsb 47 40, value.extractLsb 55 48, value.extractLsb 63 56] .done

/-- R58. -/
def Obligations.Dec16beReadsMostSignificantByteFirst : Prop :=
  ∀ w : PtrWidth, Reads w .dec16be 0b001001#6 2 fun b => .value16 (b 0 ++ b 1)

/-- R59. -/
def Obligations.Dec32beReadsMostSignificantByteFirst : Prop :=
  ∀ w : PtrWidth, Reads w .dec32be 0b001010#6 4 fun b => .value32 (b 0 ++ b 1 ++ b 2 ++ b 3)

/-- R60. -/
def Obligations.Dec64beReadsMostSignificantByteFirst : Prop :=
  ∀ w : PtrWidth, Reads w .dec64be 0b001011#6 8 fun b =>
    .value64 (b 0 ++ b 1 ++ b 2 ++ b 3 ++ b 4 ++ b 5 ++ b 6 ++ b 7)

/-- R61. -/
def Obligations.Dec16leReadsLeastSignificantByteFirst : Prop :=
  ∀ w : PtrWidth, Reads w .dec16le 0b001101#6 2 fun b => .value16 (b 1 ++ b 0)

/-- R62. -/
def Obligations.Dec32leReadsLeastSignificantByteFirst : Prop :=
  ∀ w : PtrWidth, Reads w .dec32le 0b001110#6 4 fun b => .value32 (b 3 ++ b 2 ++ b 1 ++ b 0)

/-- R63. -/
def Obligations.Dec64leReadsLeastSignificantByteFirst : Prop :=
  ∀ w : PtrWidth, Reads w .dec64le 0b001111#6 8 fun b =>
    .value64 (b 7 ++ b 6 ++ b 5 ++ b 4 ++ b 3 ++ b 2 ++ b 1 ++ b 0)

/-- R64: the round trip, in both directions, for the three widths and the two orders. -/
def Obligations.EndianCodecRoundTrips : Prop :=
  (ComesBack .enc16be .dec16be 2 .value16 ∧ PutsBack .enc16be .dec16be 2 .value16) ∧
  (ComesBack .enc32be .dec32be 4 .value32 ∧ PutsBack .enc32be .dec32be 4 .value32) ∧
  (ComesBack .enc64be .dec64be 8 .value64 ∧ PutsBack .enc64be .dec64be 8 .value64) ∧
  (ComesBack .enc16le .dec16le 2 .value16 ∧ PutsBack .enc16le .dec16le 2 .value16) ∧
  (ComesBack .enc32le .dec32le 4 .value32 ∧ PutsBack .enc32le .dec32le 4 .value32) ∧
  (ComesBack .enc64le .dec64le 8 .value64 ∧ PutsBack .enc64le .dec64le 8 .value64)

/-- R65: the big-endian encoding is the little-endian encoding with the byte order reversed. -/
def Obligations.BigEndianMirrorsLittleEndian : Prop :=
  MirrorEachOther .enc16be .enc16le 2 ∧ MirrorEachOther .enc32be .enc32le 4 ∧ MirrorEachOther .enc64be .enc64le 8

/-- R66: 0 and the maximum of each width, in both orders. -/
def Obligations.BoundaryValuesRoundTrip : Prop :=
  Boundaries .enc16be .dec16be 0x01 2 .value16 ∧ Boundaries .enc16le .dec16le 0x05 2 .value16 ∧
  Boundaries .enc32be .dec32be 0x02 4 .value32 ∧ Boundaries .enc32le .dec32le 0x06 4 .value32 ∧
  Boundaries .enc64be .dec64be 0x03 8 .value64 ∧ Boundaries .enc64le .dec64le 0x07 8 .value64

/-- R67: encoding in one order and decoding in the other reverses the bytes of the value; twice is not at all; the examples. -/
def Obligations.CrossedOrdersSwapTheBytes : Prop :=
  Swaps .enc16be .dec16le 2 .value16 ∧ Swaps .enc32be .dec32le 4 .value32 ∧ Swaps .enc64be .dec64le 8 .value64 ∧
  Swaps .enc16le .dec16be 2 .value16 ∧ Swaps .enc32le .dec32be 4 .value32 ∧ Swaps .enc64le .dec64be 8 .value64 ∧
  (∀ v x : BitVec 16, Reverses 2 v x → Reverses 2 x v) ∧ (∀ v x : BitVec 32, Reverses 4 v x → Reverses 4 x v) ∧
  (∀ v x : BitVec 64, Reverses 8 v x → Reverses 8 x v) ∧
  Reverses 2 0xAABB#16 0xBBAA ∧ Reverses 4 0xAABBCCDD#32 0xDDCCBBAA ∧ Reverses 8 0x1122334455667788#64 0x8877665544332211

/-- R69: for each width and order the encode rule is a bijection between values and byte sequences, and the decode rule its inverse. -/
def Obligations.EncodingIsABijection : Prop :=
  ∀ n, n = 2 ∨ n = 4 ∨ n = 8 →
    (∀ v : BitVec (8 * n), BitVec.ofNat (8 * n) (beValue (beBytes n v)) = v ∧ BitVec.ofNat (8 * n) (leValue (leBytes n v)) = v) ∧
    ∀ bytes : List Byte, bytes.length = n →
      beBytes n (BitVec.ofNat (8 * n) (beValue bytes)) = bytes ∧ leBytes n (BitVec.ofNat (8 * n) (leValue bytes)) = bytes

/-! ## AddressCodec -/

/-- R71, with the layout of R77. -/
def Obligations.EncaddrWritesWBytesAndReturnsW : Prop := AddressEncodes .encaddr 0b010000#6

/-- R72: as ENCADDR with the pointer's bits unchanged (D7). -/
def Obligations.EncaddrpEncodesThePointerAsAnAddress : Prop :=
  AddressEncodes .encaddrp 0b010001#6 ∧
  ∀ (x : BitVec 64) (buf : View) (s : State), s.w.fits x = true → s.w.bytes ≤ buf.cap → s.clearFor .write buf.base s.w.bytes →
    ∃ t, exec (.encaddrp x buf) s = .next t ∧ exec (.encaddr x buf) s = .next t

/-- R73. -/
def Obligations.DecaddrReadsWBytesAndReturnsW : Prop :=
  Reads .w1 .decaddr 0b011000#6 1 (fun b => .address ((b 0).setWidth 64) 0b0001#4) ∧
  Reads .w2 .decaddr 0b011000#6 2 (fun b => .address ((b 0 ++ b 1).setWidth 64) 0b0010#4) ∧
  Reads .w4 .decaddr 0b011000#6 4 (fun b => .address ((b 0 ++ b 1 ++ b 2 ++ b 3).setWidth 64) 0b0100#4) ∧
  Reads .w8 .decaddr 0b011000#6 8 (fun b => .address (b 0 ++ b 1 ++ b 2 ++ b 3 ++ b 4 ++ b 5 ++ b 6 ++ b 7) 0b1000#4)

/-- R74: whatever operation completes, a width tag it delivers is `W`. -/
def Obligations.EveryWidthTagIsW : Prop :=
  ∀ (i : Instr) (s t : State), exec i s = .next t →
    (∀ x, t.responses.head? = some (.width x) → x.toNat = s.w.bytes) ∧
    ∀ a x, t.responses.head? = some (.address a x) → x.toNat = s.w.bytes ∧ a.toNat < 2 ^ (8 * s.w.bytes)

/-- R75: an address comes back through either entry point with the width tag `W` from both operations, and a decode followed by an encode
of its result leaves the store unchanged. -/
def Obligations.AddressRoundTrips : Prop :=
  ∀ (buf : View) (s : State), s.store.wf → s.w.bytes ≤ buf.cap → s.clearFor .write buf.base s.w.bytes →
    (∀ a : BitVec 64, s.w.fits a = true → ∀ i, i = Instr.encaddr a buf ∨ i = Instr.encaddrp a buf →
      ∃ t u, exec i s = .next t ∧ exec (.decaddr buf) t = .next u ∧
        u.responses = .address a (BitVec.ofNat 4 s.w.bytes) :: .width (BitVec.ofNat 4 s.w.bytes) :: s.responses) ∧
    ∃ a t u, exec (.decaddr buf) s = .next t ∧ t.responses = .address a (BitVec.ofNat 4 s.w.bytes) :: s.responses ∧
      exec (.encaddr a buf) t = .next u ∧ u.store = s.store ∧ u.responses.head? = some (.width (BitVec.ofNat 4 s.w.bytes))

/-- R76: for `W` = 2, 4, 8 the bytes ENCADDR writes and the address DECADDR returns are those of the big-endian EndianCodec operations of
that width. -/
def Obligations.AddressCodecAgreesWithEndianCodec : Prop :=
  ∀ (buf : View) (s : State), s.w.bytes ≤ buf.cap → s.clearFor .write buf.base s.w.bytes →
    (s.w = .w2 →
      (∀ v : BitVec 16, ∃ t u, exec (.encaddr (v.setWidth 64) buf) s = .next t ∧ exec (.enc16be v buf) s = .next u ∧ t.store = u.store) ∧
      ∃ v : BitVec 16, ∃ t u, exec (.decaddr buf) s = .next t ∧ exec (.dec16be buf) s = .next u ∧
        t.responses.head? = some (.address (v.setWidth 64) 2) ∧ u.responses.head? = some (.value16 v)) ∧
    (s.w = .w4 →
      (∀ v : BitVec 32, ∃ t u, exec (.encaddr (v.setWidth 64) buf) s = .next t ∧ exec (.enc32be v buf) s = .next u ∧ t.store = u.store) ∧
      ∃ v : BitVec 32, ∃ t u, exec (.decaddr buf) s = .next t ∧ exec (.dec32be buf) s = .next u ∧
        t.responses.head? = some (.address (v.setWidth 64) 4) ∧ u.responses.head? = some (.value32 v)) ∧
    (s.w = .w8 →
      (∀ v : BitVec 64, ∃ t u, exec (.encaddr v buf) s = .next t ∧ exec (.enc64be v buf) s = .next u ∧ t.store = u.store) ∧
      ∃ v : BitVec 64, ∃ t u, exec (.decaddr buf) s = .next t ∧ exec (.dec64be buf) s = .next u ∧
        t.responses.head? = some (.address v 8) ∧ u.responses.head? = some (.value64 v))

/-! ## FrameChecksum -/

/-- R81, bit by bit, and its examples. -/
def Obligations.CrcBitStepShiftsAndFolds : Prop :=
  (∀ (acc : BitVec 32) (k : Nat), k < 32 →
    (crcBitStep acc).getLsbD k = ((k < 31 && acc.getLsbD (k + 1)) ^^ (acc.getLsbD 0 && (0xEDB88320#32).getLsbD k))) ∧
  crcBitStep 0x00000000 = 0x00000000 ∧ crcBitStep 0x00000001 = 0xEDB88320 ∧ crcBitStep 0x00000002 = 0x00000001 ∧
  crcBitStep 0xFFFFFFFF = 0x92477CDF ∧ crcBitStep 0x80000000 = 0x40000000

/-- R82: the byte is folded into bits 7:0 and exactly 8 bit steps follow; its examples. -/
def Obligations.CrcByteStepIsEightBitSteps : Prop :=
  (∀ (acc : BitVec 32) (b : Byte), crcByteStep acc b = crcBitStep^[8] (acc ^^^ b.setWidth 32)) ∧
  crcByteStep 0x00000000 0x00 = 0x00000000 ∧ crcByteStep 0xFFFFFFFF 0xFF = 0x00FFFFFF ∧ crcByteStep 0xFFFFFFFF 0x31 = 0x7C231048

/-- R83: for every sequence `acc` of accumulators that starts at the complement of the seed and takes the bytes of the view in increasing offset
order, the result is the complement of the last. -/
def Obligations.Crc32FoldsTheBytesInOrder : Prop :=
  ∀ (buf : View) (length : Nat) (startValue : BitVec 32) (s : State),
    (encode (.crc32 buf length startValue)).op = 0b100000#6 ∧
    decode (encode (.crc32 buf length startValue)) = .ok (.crc32 buf length startValue) ∧
    (buf.cap < length → exec (.crc32 buf length startValue) s = .fault (.capacityViolation 0b100000#6 length buf.cap)) ∧
    (length ≤ buf.cap → s.clearFor .read buf.base length → ∀ acc : Nat → BitVec 32, acc 0 = ~~~ startValue →
      (∀ k < length, acc (k + 1) = crcByteStep (acc k) (s.store.read (buf.base + k))) →
      exec (.crc32 buf length startValue) s = .next { s with responses := .crc (~~~ (acc length)) :: s.responses })

/-- R85, R84: an empty range returns the seed, on every view and whatever is in flight. -/
def Obligations.Crc32OfNothingIsTheSeed : Prop :=
  ∀ (buf : View) (startValue : BitVec 32) (s : State),
    exec (.crc32 buf 0 startValue) s = .next { s with responses := .crc startValue :: s.responses }

/-- R86: chaining two segments is the checksum of their concatenation, for every seed, wherever the three views lie. -/
def Obligations.Crc32ChainsThroughTheSeed : Prop :=
  ∀ (a b c : View) (la lb : Nat) (seed : BitVec 32) (s : State),
    la ≤ a.cap → lb ≤ b.cap → la + lb ≤ c.cap →
    s.clearFor .read a.base la → s.clearFor .read b.base lb → s.clearFor .read c.base (la + lb) →
    (∀ k < la, s.store.read (c.base + k) = s.store.read (a.base + k)) →
    (∀ k < lb, s.store.read (c.base + la + k) = s.store.read (b.base + k)) →
    ∃ c1 c2 t u, exec (.crc32 a la seed) s = .next t ∧ t.responses = .crc c1 :: s.responses ∧
      exec (.crc32 b lb c1) t = .next u ∧ u.responses.head? = some (.crc c2) ∧
      exec (.crc32 c (la + lb) seed) s = .next { s with responses := .crc c2 :: s.responses }

/-- R87: the source's two vectors, on any view that holds the bytes. -/
def Obligations.Crc32KnownVectors : Prop :=
  (∀ (buf : View) (s : State), exec (.crc32 buf 0 0) s = .next { s with responses := .crc 0x00000000 :: s.responses }) ∧
  ∀ (buf : View) (s : State), 9 ≤ buf.cap → s.clearFor .read buf.base 9 →
    (∀ k < 9, s.store.read (buf.base + k) = BitVec.ofNat 8 (0x31 + k)) →
    exec (.crc32 buf 9 0) s = .next { s with responses := .crc 0xCBF43926 :: s.responses }

/-- R92: from the seed 0xFFFFFFFF zero bytes leave the result where it was, for every length; a leading zero byte is not ignored from seed 0. -/
def Obligations.Crc32OfZeroBytes : Prop :=
  ∀ (buf : View) (s : State),
    (∀ length, length ≤ buf.cap → s.clearFor .read buf.base length → (∀ k < length, s.store.read (buf.base + k) = 0x00) →
      exec (.crc32 buf length 0xFFFFFFFF) s = .next { s with responses := .crc 0xFFFFFFFF :: s.responses }) ∧
    (1 ≤ buf.cap → s.clearFor .read buf.base 1 → s.store.read buf.base = 0x00 →
      exec (.crc32 buf 1 0) s = .next { s with responses := .crc 0xD202EF8D :: s.responses })

/-- R93: the result is a function of the bytes, the length and the seed, not of where the view lies, of `W` or of earlier operations. -/
def Obligations.Crc32DependsOnTheBytesOnly : Prop :=
  ∀ (a b : View) (length : Nat) (seed : BitVec 32) (s t : State),
    length ≤ a.cap → length ≤ b.cap → s.clearFor .read a.base length → t.clearFor .read b.base length →
    (∀ k < length, s.store.read (a.base + k) = t.store.read (b.base + k)) →
    ∃ c, exec (.crc32 a length seed) s = .next { s with responses := .crc c :: s.responses } ∧
      exec (.crc32 b length seed) t = .next { t with responses := .crc c :: t.responses }

/-- Script P5, variant C, of `95_test_vectors.md`, for data of any length: a frame whose trailer is the little-endian checksum of its data
has the checksum 0x2144DF1C, whatever the data are. -/
def Obligations.LittleEndianTrailerLeavesAConstant : Prop :=
  ∀ (buf : View) (n : Nat) (s : State), s.store.wf → n + 4 ≤ buf.cap →
    s.clearFor .read buf.base (n + 4) → s.clearFor .write (buf.base + n) 4 →
    ∃ c t u v, exec (.crc32 buf n 0) s = .next t ∧ t.responses = .crc c :: s.responses ∧
      exec (.enc32le c ⟨buf.base + n, buf.cap - n⟩) t = .next u ∧
      exec (.crc32 buf (n + 4) 0) u = .next v ∧ v.responses.head? = some (.crc 0x2144DF1C)

/-- From R81 to R83: a change confined to one byte of the range always changes the checksum. -/
def Obligations.OneChangedByteChangesTheChecksum : Prop :=
  ∀ (a b : View) (n j : Nat) (seed : BitVec 32) (s : State), n ≤ a.cap → n ≤ b.cap →
    s.clearFor .read a.base n → s.clearFor .read b.base n → j < n →
    s.store.read (a.base + j) ≠ s.store.read (b.base + j) →
    (∀ k < n, k ≠ j → s.store.read (a.base + k) = s.store.read (b.base + k)) →
    ∃ ca cb, exec (.crc32 a n seed) s = .next { s with responses := .crc ca :: s.responses } ∧
      exec (.crc32 b n seed) s = .next { s with responses := .crc cb :: s.responses } ∧ ca ≠ cb

/-! ## What every operation does, and when -/

/-- R27, the table of bytes read and written. -/
def Obligations.AccessWidthsAreTheTables : Prop :=
  ∀ (w : PtrWidth) (v16 : BitVec 16) (v32 seed : BitVec 32) (v64 : BitVec 64) (buf : View) (n : Nat),
    footprintOf w (.enc16be v16 buf) = ⟨.write, buf.base, 2⟩ ∧ footprintOf w (.enc16le v16 buf) = ⟨.write, buf.base, 2⟩ ∧
    footprintOf w (.enc32be v32 buf) = ⟨.write, buf.base, 4⟩ ∧ footprintOf w (.enc32le v32 buf) = ⟨.write, buf.base, 4⟩ ∧
    footprintOf w (.enc64be v64 buf) = ⟨.write, buf.base, 8⟩ ∧ footprintOf w (.enc64le v64 buf) = ⟨.write, buf.base, 8⟩ ∧
    footprintOf w (.dec16be buf) = ⟨.read, buf.base, 2⟩ ∧ footprintOf w (.dec16le buf) = ⟨.read, buf.base, 2⟩ ∧
    footprintOf w (.dec32be buf) = ⟨.read, buf.base, 4⟩ ∧ footprintOf w (.dec32le buf) = ⟨.read, buf.base, 4⟩ ∧
    footprintOf w (.dec64be buf) = ⟨.read, buf.base, 8⟩ ∧ footprintOf w (.dec64le buf) = ⟨.read, buf.base, 8⟩ ∧
    footprintOf w (.encaddr v64 buf) = ⟨.write, buf.base, w.bytes⟩ ∧
    footprintOf w (.encaddrp v64 buf) = ⟨.write, buf.base, w.bytes⟩ ∧
    footprintOf w (.decaddr buf) = ⟨.read, buf.base, w.bytes⟩ ∧
    footprintOf w (.crc32 buf n seed) = ⟨.read, buf.base, n⟩

/-- R28: the frame of all 16 operations. An operation that reads leaves the whole store as it was; one that writes leaves every byte outside
its own as it was, and what it writes does not depend on what the buffer held. Nothing else of the state changes but one more response. -/
def Obligations.EveryOperationKeepsItsFrame : Prop :=
  ∀ (i : Instr) (s t : State), s.store.wf → exec i s = .next t →
    t.w = s.w ∧ t.script = s.script ∧ t.inFlight = s.inFlight ∧ t.mark = s.mark ∧ (∃ r, t.responses = r :: s.responses) ∧
    (accessOf i = .read → t.store = s.store) ∧
    (∀ a, a < i.view.base ∨ i.view.base + bytesNeeded s.w i ≤ a → t.store.read a = s.store.read a) ∧
    ∀ s' t', s'.store.wf → s'.w = s.w → exec i s' = .next t' → accessOf i = .write →
      ∀ k < bytesNeeded s.w i, t.store.read (i.view.base + k) = t'.store.read (i.view.base + k)

/-- R10: the result of an operation and its effect on the buffer are a function of its operands, of the bytes of its view and of `W` only. -/
def Obligations.OperationsSeeOnlyTheirViewAndW : Prop :=
  ∀ (i : Instr) (s s' t t' : State), s.store.wf → s'.store.wf → s.w = s'.w →
    (∀ k < bytesNeeded s.w i, s.store.read (i.view.base + k) = s'.store.read (i.view.base + k)) →
    exec i s = .next t → exec i s' = .next t' →
    t.responses.head? = t'.responses.head? ∧
    ∀ k < bytesNeeded s.w i, t.store.read (i.view.base + k) = t'.store.read (i.view.base + k)

/-- R15: EndianCodec and FrameChecksum (every code but those of format A, `op[5:4]` = 0b01) do not depend on `W`: on blocks that differ in `W`
alone every outcome is the same, the next states differing in `W` alone. The bytes that an AddressCodec operation in flight touches do depend
on `W` (R27), and a conflict with them is refused (R106): so the outcome is the same if none is in flight, and in any case the next states
are, where both are reached. -/
def Obligations.WidthMattersToAddressCodecOnly : Prop :=
  ∀ (i : Instr) (s : State) (w : PtrWidth), i.code.extractLsb 5 4 ≠ 0b01#2 →
    ((∀ g ∈ s.inFlight, g.instr.code.extractLsb 5 4 ≠ 0b01#2) → exec i { s with w := w } = withWidth w (exec i s)) ∧
    ∀ t u, exec i s = .next t → exec i { s with w := w } = .next u → u = { t with w := w }

/-- R97 (and R114): every operation handed a view shorter than the bytes it needs is the fault that records its code, the bytes needed and
the capacity, whatever is in flight; a run that meets it ends there, with the mark set and never cleared, no byte written and no result. That the request which stopped stays on the script and that
later steps answer the stop again (log entry 8), and that the fault comes before a race (log entry 9), are the model's. -/
def Obligations.ShortViewsFault : Prop :=
  ∀ (i : Instr) (s : State), i.wellFormed s.w = true → i.view.cap < bytesNeeded s.w i →
    exec i s = .fault (.capacityViolation i.code (bytesNeeded s.w i) i.view.cap) ∧
    ∀ k rest, s.mark = none → s.script = .request (encode i) k :: rest → ∀ n,
      State.runFor (n + 1) s = { s with mark := some (.fault (.capacityViolation i.code (bytesNeeded s.w i) i.view.cap)) }

/-- R108: an operation completes exactly when the caller keeps its contract for it: operand within its port, view long enough, no
conflicting operation in flight. -/
def Obligations.OperationsCompleteExactlyUnderTheContract : Prop :=
  ∀ (i : Instr) (s : State), (∃ t, exec i s = .next t) ↔ s.admits i

/-- R106, and R99's record: an operation is refused as a race exactly when it conflicts with one in flight, and the refusal always records
its request and that of one in flight that it conflicts with. -/
def Obligations.ConflictingOperationsAreRefused : Prop :=
  ∀ (i : Instr) (s : State), i.wellFormed s.w = true → bytesNeeded s.w i ≤ i.view.cap →
    ((∃ g ∈ s.inFlight, (footprintOf s.w g.instr).clash (footprintOf s.w i)) ↔
      ∃ mine other, exec i s = .refused (.raceRefused mine other)) ∧
    ∀ mine other, exec i s = .refused (.raceRefused mine other) →
      mine = .operation (encode i) ∧
        ∃ g ∈ s.inFlight, other = encode g.instr ∧ (footprintOf s.w g.instr).clash (footprintOf s.w i)

/-- R32: two operations whose bytes do not conflict commute: in either order both complete, the final store is the same and each gives the
same result. -/
def Obligations.NonConflictingOperationsCommute : Prop :=
  ∀ (i j : Instr) (s : State), s.store.wf → s.admits i → s.admits j → ¬ (footprintOf s.w i).clash (footprintOf s.w j) →
    ∃ ri rj t u t' u', exec i s = .next t ∧ exec j t = .next u ∧ exec j s = .next t' ∧ exec i t' = .next u' ∧
      u.store = u'.store ∧ u.responses = rj :: ri :: s.responses ∧ u'.responses = ri :: rj :: s.responses

/-! ## The whole machine -/

/-- R14: no step changes `W`. -/
def Obligations.StepsNeverChangeW : Prop :=
  ∀ s t : State, step s = .next t → t.w = s.w

/-- The store keeps its canonical form through every step, from every state that has it. The form is the model's, log entry 2. -/
def Obligations.StepsKeepTheStoreCanonical : Prop :=
  ∀ s t : State, s.store.wf → step s = .next t → t.store.wf

/-- The store has its canonical form at reset. The form is the model's, log entry 2. -/
def Obligations.ResetStoreIsCanonical : Prop := State.reset.store.wf

/-- R18, R110: after reset nothing is held and the mark is clear. The empty lists (log entries 3, 4) and the byte an
unlisted address reads as (log entry 2) are the model's; `W` is the build's constant (log entry 1). -/
def Obligations.ResetHoldsNothing : Prop :=
  State.reset.w = Config.pointerWidth ∧ State.reset.script = [] ∧ State.reset.inFlight = [] ∧ State.reset.responses = [] ∧
    State.reset.mark = none ∧ ∀ a, State.reset.store.read a = 0x00

/-- R106: operations in flight together never conflict, however the caller's acts overlap (the overlap is the model's, log entry 4). -/
def Obligations.FlightsNeverConflict : Prop :=
  ∀ s t : State, FlightsApart s → step s = .next t → FlightsApart t

/-- R97, R104: a marked run does not go on, and its mark is never cleared (that its step answers the stop again is the model's, log entry
8). -/
def Obligations.MarkedRunsAreOver : Prop :=
  ∀ (s : State) (x : Stop), s.mark = some x → step s = x.outcome ∧ ∀ n, State.runFor n s = s

/-- R97, R103, R106: a stop is precise: everything but the mark is as the preceding acts left it, and the mark is the record of the stop.
That it holds of refusals too, and that the act which stopped stays on the script, is the model's (log entry 8); the proof rests on
`State.after` alone. -/
def Obligations.StopsLeaveAllButTheMark : Prop :=
  ∀ s : State, s.mark = none →
    (∀ f, step s = .fault f → s.after (step s) = { s with mark := some (.fault f) }) ∧
    ∀ x, step s = .refused x → s.after (step s) = { s with mark := some (.refused x) }

/-- R108, R123: a script comes to its end or to a stop within as many steps as it has acts: no act waits for anything. -/
def Obligations.ScriptsEndOrStop : Prop :=
  ∀ s : State, (State.runFor s.script.length s).finished ∨ ((State.runFor s.script.length s).mark).isSome = true

/-- R110, R111: a reset between operations changes nothing but the script it is taken from; inside an operation there is no such step. The
act is the model's, log entries 3 and 4. -/
def Obligations.ResetHasNoArchitecturalEffect : Prop :=
  ∀ (s : State) (rest : List CallerAct), s.mark = none → s.script = .reset :: rest →
    (s.inFlight = [] → step s = .next (s.withScript rest)) ∧
    (s.inFlight ≠ [] → step s = .refused .resetMidOperation)

/-- R20, R115, R118: the caller's own write puts its bytes and leaves every other byte, `W`, the results and the mark; where it touches a byte
of an operation in flight it is refused, with the write and that operation's request on record. The act is the model's, log entries 3 and 4. -/
def Obligations.CallerWritesItsOwnBuffers : Prop :=
  ∀ (s : State) (base : Nat) (bytes : List Byte) (rest : List CallerAct),
    s.mark = none → s.store.wf → s.script = .store base bytes :: rest →
    (s.clearFor .write base bytes.length →
      ∃ t, step s = .next t ∧ t.store.wf ∧ (∀ k (h : k < bytes.length), t.store.read (base + k) = bytes[k]) ∧
        (∀ a, a < base ∨ base + bytes.length ≤ a → t.store.read a = s.store.read a) ∧
        t.w = s.w ∧ t.script = rest ∧ t.responses = s.responses ∧ t.mark = none) ∧
    (¬ s.clearFor .write base bytes.length → ∃ g ∈ s.inFlight,
      (footprintOf s.w g.instr).clash { access := .write, base := base, len := bytes.length } ∧
      step s = .refused (.raceRefused (.callerStore base bytes) (encode g.instr)))

/-- D6, R99: a request that carries a bit its operand does not have is refused, not truncated: an integer above 16 or 32 bits, an address or
pointer above `8*W` bits, and (the model's choice, log entry 5) anything on a port the operation does not use. -/
def Obligations.ExcessOperandBitsAreRefused : Prop :=
  ∀ (s : State) (r : Request) (k : Nat) (rest : List CallerAct), s.mark = none → s.script = .request r k :: rest →
    ((r.op = 0x01 ∨ r.op = 0x05) ∧ 2 ^ 16 ≤ r.value.toNat ∨ (r.op = 0x02 ∨ r.op = 0x06) ∧ 2 ^ 32 ≤ r.value.toNat ∨
      (r.op = 0x10 ∨ r.op = 0x11) ∧ 2 ^ (8 * s.w.bytes) ≤ r.value.toNat ∨
      ¬ ReservedCode r.op.toNat ∧ (r.op.getLsbD 3 = true ∨ r.op = 0x20) ∧ r.value ≠ 0 ∨
      ¬ ReservedCode r.op.toNat ∧ r.op ≠ 0x20 ∧ (r.length ≠ 0 ∨ r.startValue ≠ 0)) →
    step s = .refused (.operandTooWide r.op)
end

