-- ==== Sys2Proof/Laws/Checksum.lean ====
section
/-! SUPPORT. The algebra of the checksum: the steps are linear over exclusive or, and the fold over two segments is the fold over
both. -/

namespace Sys2Proof.Machine

theorem crcBitStep_xor (x y : BitVec 32) : crcBitStep (x ^^^ y) = crcBitStep x ^^^ crcBitStep y := by
  simp only [crcBitStep, BitVec.getLsbD_xor, BitVec.ushiftRight_xor_distrib]
  cases x.getLsbD 0 <;> cases y.getLsbD 0 <;> simp [BitVec.xor_assoc]
  rw [BitVec.xor_comm (y >>> 1)]

/-- With nothing in the low bit the bit step is the shift alone. -/
theorem crcBitStep_of_even {x : BitVec 32} (h : x.getLsbD 0 = false) : crcBitStep x = x >>> 1 := by
  simp only [crcBitStep, h, Bool.false_eq_true, if_false]

theorem crcByteStep_xor (x y : BitVec 32) (b c : Byte) :
    crcByteStep (x ^^^ y) (b ^^^ c) = crcByteStep x b ^^^ crcByteStep y c := by
  simp only [crcByteStep, ← crcBitStep_xor, BitVec.setWidth_xor]
  rw [show x ^^^ y ^^^ (b.setWidth 32 ^^^ c.setWidth 32) = x ^^^ b.setWidth 32 ^^^ (y ^^^ c.setWidth 32) by ac_rfl]

theorem crc32Of_append (seed : BitVec 32) (a b : List Byte) : crc32Of seed (a ++ b) = crc32Of (crc32Of seed a) b := by
  simp [crc32Of, List.foldl_append]

end Sys2Proof.Machine
end

