-- ==== Sys2Proof/Laws/Memory.lean ====
section
/-! SUPPORT. The laws of the store: every operation keeps the canonical form, what a read after a write gives, and that two
canonical stores that read alike are equal. -/

namespace Sys2Proof.Machine

@[simp] theorem Memory.wf_nil : Memory.wf [] := by simp [Memory.wf]

theorem Memory.wf_cons {k : Nat} {b : Byte} {m : Memory} :
    Memory.wf ((k, b) :: m) ↔ b ≠ Memory.unlisted ∧ (∀ c ∈ m, k < c.1) ∧ Memory.wf m := by
  simp only [Memory.wf, List.pairwise_cons, List.forall_mem_cons]
  tauto

/-- An address below every listed one is unlisted. -/
theorem Memory.read_of_lt {m : Memory} {a : Nat} (h : ∀ c ∈ m, a < c.1) : Memory.read m a = Memory.unlisted := by
  induction m with
  | nil => rfl
  | cons c m ih =>
    have hc : a < c.1 := h c (by simp)
    simp only [Memory.read, if_neg (by omega : ¬ c.1 = a)]
    exact ih fun d hd => h d (by simp [hd])

/-- Every entry after a write is the byte written or was there before. -/
theorem Memory.mem_write {m : Memory} {a : Nat} {b : Byte} {c : Host.Cell} (h : c ∈ Memory.write m a b) :
    (c = (a, b) ∧ b ≠ Memory.unlisted) ∨ c ∈ m := by
  induction m with
  | nil =>
    simp only [Memory.write] at h
    split at h <;> simp_all
  | cons d m ih =>
    obtain ⟨k, e⟩ := d
    simp only [Memory.write] at h
    split at h
    · split at h
      · exact Or.inr h
      · rename_i hb
        rcases List.mem_cons.mp h with rfl | h
        · exact Or.inl ⟨rfl, hb⟩
        · exact Or.inr h
    · split at h
      · split at h
        · exact Or.inr (List.mem_cons_of_mem _ h)
        · rename_i hb
          rcases List.mem_cons.mp h with rfl | h
          · exact Or.inl ⟨rfl, hb⟩
          · exact Or.inr (List.mem_cons_of_mem _ h)
      · rcases List.mem_cons.mp h with rfl | h
        · simp
        · rcases ih h with h | h <;> simp [h]

theorem Memory.wf_write {m : Memory} (h : m.wf) (a : Nat) (b : Byte) : (m.write a b).wf := by
  induction m with
  | nil =>
    simp only [Memory.write]
    split
    · exact h
    · rename_i hb
      exact Memory.wf_cons.mpr ⟨hb, by simp, h⟩
  | cons d m ih =>
    obtain ⟨k, e⟩ := d
    obtain ⟨he, hlt, hm⟩ := Memory.wf_cons.mp h
    simp only [Memory.write]
    split
    · rename_i hak
      split
      · exact h
      · rename_i hb
        refine Memory.wf_cons.mpr ⟨hb, ?_, h⟩
        intro c hc
        rcases List.mem_cons.mp hc with rfl | hc
        · exact hak
        · exact Nat.lt_trans hak (hlt c hc)
    · split
      · rename_i hak
        split
        · exact hm
        · rename_i hb
          exact Memory.wf_cons.mpr ⟨hb, by simpa [hak] using hlt, hm⟩
      · refine Memory.wf_cons.mpr ⟨he, ?_, ih hm⟩
        intro c hc
        rcases Memory.mem_write hc with ⟨rfl, -⟩ | hc
        · simp only; omega
        · exact hlt c hc

/-- Reading after one write: the byte written at its address, every other byte as before. -/
theorem Memory.read_write {m : Memory} (h : m.wf) (a : Nat) (b : Byte) (x : Nat) :
    (m.write a b).read x = if x = a then b else m.read x := by
  induction m with
  | nil => by_cases hb : b = Memory.unlisted <;> by_cases hx : a = x <;> simp [Memory.write, Memory.read, hb, hx, eq_comm]
  | cons d m ih =>
    obtain ⟨k, e⟩ := d
    obtain ⟨he, hlt, hm⟩ := Memory.wf_cons.mp h
    simp only [Memory.write]
    split
    · rename_i hak
      by_cases hb : b = Memory.unlisted
      · rw [if_pos hb]
        by_cases hx : x = a
        · rw [if_pos hx, hx, hb]
          refine Memory.read_of_lt fun c hc => ?_
          rcases List.mem_cons.mp hc with rfl | hc
          · exact hak
          · exact Nat.lt_trans hak (hlt c hc)
        · rw [if_neg hx]
      · rw [if_neg hb]
        by_cases hx : x = a
        · simp [Memory.read, hx]
        · simp [Memory.read, hx, Ne.symm hx]
    · split
      · rename_i hak
        subst hak
        by_cases hb : b = Memory.unlisted
        · rw [if_pos hb]
          by_cases hx : x = a
          · rw [if_pos hx, hx, hb]
            exact Memory.read_of_lt hlt
          · simp [Memory.read, hx, Ne.symm hx]
        · rw [if_neg hb]
          by_cases hx : x = a
          · simp [Memory.read, hx]
          · simp [Memory.read, hx, Ne.symm hx]
      · rename_i hak
        have := ih hm
        by_cases hx : k = x
        · subst hx; simp [Memory.read, Ne.symm hak]
        · simp only [Memory.read, if_neg hx, this]

theorem Memory.wf_writeBytes {m : Memory} (h : m.wf) (base : Nat) (bs : List Byte) : (m.writeBytes base bs).wf := by
  induction bs generalizing m base with
  | nil => exact h
  | cons b bs ih => exact ih (Memory.wf_write h base b) (base + 1)

/-- Reading outside the bytes written: as before. -/
theorem Memory.read_writeBytes_outside {m : Memory} (h : m.wf) {base : Nat} {bs : List Byte} {a : Nat}
    (ha : a < base ∨ base + bs.length ≤ a) : (m.writeBytes base bs).read a = m.read a := by
  induction bs generalizing m base with
  | nil => rfl
  | cons b bs ih =>
    simp only [List.length_cons] at ha
    rw [Memory.writeBytes, ih (Memory.wf_write h base b) (by omega), Memory.read_write h, if_neg (by omega)]

/-- Reading inside the bytes written: the byte written there. -/
theorem Memory.read_writeBytes_inside {m : Memory} (h : m.wf) {base : Nat} {bs : List Byte} {k : Nat} (hk : k < bs.length) :
    (m.writeBytes base bs).read (base + k) = bs[k] := by
  induction bs generalizing m base k with
  | nil => simp at hk
  | cons b bs ih =>
    rw [Memory.writeBytes]
    cases k with
    | zero =>
      rw [Memory.read_writeBytes_outside (Memory.wf_write h base b) (by omega), Memory.read_write h]
      simp
    | succ k =>
      rw [show base + (k + 1) = base + 1 + k by omega, ih (Memory.wf_write h base b) (by simpa using hk)]
      simp

@[simp] theorem Memory.length_readBytes (m : Memory) (base n : Nat) : (m.readBytes base n).length = n := by
  simp [Memory.readBytes]

@[simp] theorem Memory.getElem_readBytes (m : Memory) (base n k : Nat) (h : k < (m.readBytes base n).length) :
    (m.readBytes base n)[k] = m.read (base + k) := by
  simp [Memory.readBytes]

/-- Two runs of bytes that read alike are the same sequence. -/
theorem Memory.readBytes_congr {m m' : Memory} {base base' n : Nat} (h : ∀ k < n, m.read (base + k) = m'.read (base' + k)) :
    m.readBytes base n = m'.readBytes base' n :=
  List.map_congr_left fun k hk => h k (List.mem_range.mp hk)

/-- A run of bytes is read back as it was written. -/
theorem Memory.readBytes_writeBytes {m : Memory} (h : m.wf) (base : Nat) (bs : List Byte) :
    (m.writeBytes base bs).readBytes base bs.length = bs :=
  List.ext_getElem (by simp) fun k _ h2 => by simp [Memory.read_writeBytes_inside h h2]

/-- The bytes of two adjacent runs. -/
theorem Memory.readBytes_append (m : Memory) (base n k : Nat) :
    m.readBytes base (n + k) = m.readBytes base n ++ m.readBytes (base + n) k := by
  simp only [Memory.readBytes, List.range_add, List.map_append, List.map_map]
  congr 1
  exact List.map_congr_left fun j _ => by simp [Nat.add_assoc]

/-- Canonical stores that read alike at every address are equal: the store is its contents. -/
theorem Memory.ext_of_read {m m' : Memory} (h : m.wf) (h' : m'.wf) (hr : ∀ a, m.read a = m'.read a) : m = m' := by
  induction m generalizing m' with
  | nil =>
    cases m' with
    | nil => rfl
    | cons d t =>
      obtain ⟨k, b⟩ := d
      exact absurd (hr k).symm (by simpa [Memory.read] using (Memory.wf_cons.mp h').1)
  | cons c m ih =>
    obtain ⟨k, b⟩ := c
    obtain ⟨hb, hlt, hm⟩ := Memory.wf_cons.mp h
    cases m' with
    | nil => exact absurd (hr k) (by simpa [Memory.read] using hb)
    | cons d m' =>
      obtain ⟨k', b'⟩ := d
      obtain ⟨hb', hlt', hm'⟩ := Memory.wf_cons.mp h'
      have hk : k = k' := by
        rcases Nat.lt_trichotomy k k' with hlt2 | rfl | hlt2
        · refine absurd (hr k) ?_
          rw [Memory.read_of_lt (m := (k', b') :: m') (a := k)]
          · simpa [Memory.read] using hb
          · intro c hc
            rcases List.mem_cons.mp hc with rfl | hc
            · exact hlt2
            · exact Nat.lt_trans hlt2 (hlt' c hc)
        · rfl
        · refine absurd (hr k').symm ?_
          rw [Memory.read_of_lt (m := (k, b) :: m) (a := k')]
          · simpa [Memory.read] using hb'
          · intro c hc
            rcases List.mem_cons.mp hc with rfl | hc
            · exact hlt2
            · exact Nat.lt_trans hlt2 (hlt c hc)
      subst hk
      have hbb : b = b' := by simpa [Memory.read] using hr k
      subst hbb
      rw [ih hm hm' fun a => ?_]
      by_cases ha : k = a
      · subst ha; rw [Memory.read_of_lt hlt, Memory.read_of_lt hlt']
      · simpa [Memory.read, ha] using hr a

end Sys2Proof.Machine
end

