-- ==== Sys2Proof/Laws/State.lean ====
section
/-! SUPPORT. Each field of State under each of its updates, so that no later proof unfolds a record update. -/

namespace Sys2Proof.Machine

variable (s : State)

@[simp] theorem State.put_w (b : Nat) (bs : List Byte) : (s.put b bs).w = s.w := rfl
@[simp] theorem State.put_store (b : Nat) (bs : List Byte) : (s.put b bs).store = s.store.writeBytes b bs := rfl
@[simp] theorem State.put_script (b : Nat) (bs : List Byte) : (s.put b bs).script = s.script := rfl
@[simp] theorem State.put_inFlight (b : Nat) (bs : List Byte) : (s.put b bs).inFlight = s.inFlight := rfl
@[simp] theorem State.put_responses (b : Nat) (bs : List Byte) : (s.put b bs).responses = s.responses := rfl
@[simp] theorem State.put_mark (b : Nat) (bs : List Byte) : (s.put b bs).mark = s.mark := rfl

@[simp] theorem State.deliver_w (r : Response) : (s.deliver r).w = s.w := rfl
@[simp] theorem State.deliver_store (r : Response) : (s.deliver r).store = s.store := rfl
@[simp] theorem State.deliver_script (r : Response) : (s.deliver r).script = s.script := rfl
@[simp] theorem State.deliver_inFlight (r : Response) : (s.deliver r).inFlight = s.inFlight := rfl
@[simp] theorem State.deliver_responses (r : Response) : (s.deliver r).responses = r :: s.responses := rfl
@[simp] theorem State.deliver_mark (r : Response) : (s.deliver r).mark = s.mark := rfl

@[simp] theorem State.withScript_w (l : List CallerAct) : (s.withScript l).w = s.w := rfl
@[simp] theorem State.withScript_store (l : List CallerAct) : (s.withScript l).store = s.store := rfl
@[simp] theorem State.withScript_script (l : List CallerAct) : (s.withScript l).script = l := rfl
@[simp] theorem State.withScript_inFlight (l : List CallerAct) : (s.withScript l).inFlight = s.inFlight := rfl
@[simp] theorem State.withScript_responses (l : List CallerAct) : (s.withScript l).responses = s.responses := rfl
@[simp] theorem State.withScript_mark (l : List CallerAct) : (s.withScript l).mark = s.mark := rfl

@[simp] theorem State.tick_w : s.tick.w = s.w := rfl
@[simp] theorem State.tick_store : s.tick.store = s.store := rfl
@[simp] theorem State.tick_script : s.tick.script = s.script := rfl
@[simp] theorem State.tick_responses : s.tick.responses = s.responses := rfl
@[simp] theorem State.tick_mark : s.tick.mark = s.mark := rfl

@[simp] theorem State.launch_w (i : Instr) (k : Nat) : (s.launch i k).w = s.w := rfl
@[simp] theorem State.launch_store (i : Instr) (k : Nat) : (s.launch i k).store = s.store := rfl
@[simp] theorem State.launch_script (i : Instr) (k : Nat) : (s.launch i k).script = s.script := rfl
@[simp] theorem State.launch_inFlight_zero (i : Instr) : (s.launch i 0).inFlight = s.inFlight := rfl
@[simp] theorem State.launch_inFlight_succ (i : Instr) (k : Nat) :
    (s.launch i (k + 1)).inFlight = { instr := i, left := k + 1 } :: s.inFlight := rfl
@[simp] theorem State.launch_responses (i : Instr) (k : Nat) : (s.launch i k).responses = s.responses := rfl
@[simp] theorem State.launch_mark (i : Instr) (k : Nat) : (s.launch i k).mark = s.mark := rfl

@[simp] theorem State.stopped_w (x : Stop) : (s.stopped x).w = s.w := rfl
@[simp] theorem State.stopped_store (x : Stop) : (s.stopped x).store = s.store := rfl
@[simp] theorem State.stopped_script (x : Stop) : (s.stopped x).script = s.script := rfl
@[simp] theorem State.stopped_inFlight (x : Stop) : (s.stopped x).inFlight = s.inFlight := rfl
@[simp] theorem State.stopped_responses (x : Stop) : (s.stopped x).responses = s.responses := rfl
@[simp] theorem State.stopped_mark (x : Stop) : (s.stopped x).mark = some (s.mark.getD x) := rfl

@[simp] theorem State.after_next (t : State) : s.after (.next t) = t := rfl
@[simp] theorem State.after_fault (f : Fault) : s.after (.fault f) = s.stopped (.fault f) := rfl
@[simp] theorem State.after_refused (r : Refusal) : s.after (.refused r) = s.stopped (.refused r) := rfl

/-- Among the operations in flight after one act are only ones that were in flight before it. -/
theorem State.mem_tick_inFlight {g : Flight} (h : g ∈ s.tick.inFlight) :
    ∃ g' ∈ s.inFlight, g'.instr = g.instr ∧ g'.left = g.left + 1 ∧ 1 ≤ g.left := by
  obtain ⟨g', hm, he⟩ := List.mem_filterMap.mp h
  by_cases hl : g'.left ≤ 1
  · simp [hl] at he
  · rw [if_neg hl] at he
    obtain rfl := Option.some.inj he
    exact ⟨g', hm, rfl, by simp; omega, by simp; omega⟩

end Sys2Proof.Machine
end

