-- ==== Sys2Proof/Laws/Operation.lean ====
section
/-! SUPPORT. What the shared operations can do: the race condition said of bytes, the three outcomes of `perform`, and the lengths and
entries of the byte sequences. -/

namespace Sys2Proof.Machine

/-! ## Operations in flight together -/

/-- `conflicts` is R106's condition on the bytes themselves. -/
theorem Footprint.conflicts_iff_clash (f g : Footprint) : f.conflicts g = true ↔ f.clash g := by
  simp only [Footprint.conflicts, Footprint.overlaps, Footprint.clash, Bool.and_eq_true, Bool.or_eq_true, decide_eq_true_eq]
  refine and_congr_right fun _ => ⟨fun h => ⟨max f.base g.base, by omega, by omega⟩, ?_⟩
  rintro ⟨a, h1, h2⟩
  omega

/-- Nothing in flight conflicts, said by the search and said of the bytes. -/
theorem State.conflict_eq_none_iff (s : State) (f : Footprint) :
    s.conflict f = none ↔ ∀ g ∈ s.inFlight, ¬ (footprintOf s.w g.instr).clash f := by
  simp only [State.conflict, List.find?_eq_none, Footprint.conflicts_iff_clash]

/-- A conflict found is one of the operations in flight, and it does conflict. -/
theorem State.conflict_eq_some {s : State} {f : Footprint} {g : Flight} (h : s.conflict f = some g) :
    g ∈ s.inFlight ∧ (footprintOf s.w g.instr).clash f :=
  ⟨List.mem_of_find?_eq_some h, (Footprint.conflicts_iff_clash _ _).mp (by simpa using List.find?_some h)⟩

theorem State.clearFor_iff (s : State) (i : Instr) :
    s.clearFor (accessOf i) i.view.base (bytesNeeded s.w i) ↔ s.conflict (footprintOf s.w i) = none := by
  rw [State.conflict_eq_none_iff]
  rfl

/-! ## `perform`, everything it can do -/

theorem perform_next {i : Instr} {s e : State} (hc : bytesNeeded s.w i ≤ i.view.cap)
    (hr : s.clearFor (accessOf i) i.view.base (bytesNeeded s.w i)) : perform i s e = .next e := by
  simp only [perform, if_pos hc, (s.clearFor_iff i).mp hr]

theorem perform_fault {i : Instr} {s e : State} (hc : i.view.cap < bytesNeeded s.w i) :
    perform i s e = .fault (.capacityViolation i.code (bytesNeeded s.w i) i.view.cap) := by
  simp only [perform, if_neg (Nat.not_le.mpr hc)]

/-- It goes on to the effect it is given, and nowhere else, exactly when the view is long enough and nothing conflicts. -/
theorem perform_eq_next_iff {i : Instr} {s e t : State} :
    perform i s e = .next t ↔
      t = e ∧ bytesNeeded s.w i ≤ i.view.cap ∧ s.clearFor (accessOf i) i.view.base (bytesNeeded s.w i) := by
  constructor
  · intro h
    simp only [perform] at h
    split at h
    · split at h
      · rename_i hc _ hn
        exact ⟨(Host.Outcome.next.inj h).symm, hc, (s.clearFor_iff i).mpr hn⟩
      · cases h
    · cases h
  · rintro ⟨rfl, hc, hr⟩
    exact perform_next hc hr

/-! ## Byte sequences -/

@[simp] theorem length_beBytes {m : Nat} (n : Nat) (v : BitVec m) : (beBytes n v).length = n := by simp [beBytes]
@[simp] theorem length_leBytes {m : Nat} (n : Nat) (v : BitVec m) : (leBytes n v).length = n := by simp [leBytes]

@[simp] theorem getElem_beBytes {m : Nat} (n : Nat) (v : BitVec m) (k : Nat) (h : k < (beBytes n v).length) :
    (beBytes n v)[k] = byteAt v (n - 1 - k) := by simp [beBytes]
@[simp] theorem getElem_leBytes {m : Nat} (n : Nat) (v : BitVec m) (k : Nat) (h : k < (leBytes n v).length) :
    (leBytes n v)[k] = byteAt v k := by simp [leBytes]

end Sys2Proof.Machine
end

