-- ==== Sys2Proof/Laws/Exec.lean ====
section
/-! SUPPORT. Everything `exec` can do, said once: a well-formed operation either writes bytes fixed by its operands and `W`, or answers from
the bytes of its view; one that is not well formed is refused. -/

namespace Sys2Proof.Machine

/-- The two shapes of an operation on a block of width `w`. -/
theorem exec_shape (i : Instr) (w : PtrWidth) (hi : i.wellFormed w = true) :
    (accessOf i = .write ∧ ∃ bytes r, bytes.length = bytesNeeded w i ∧ ∀ s : State, s.w = w → exec i s = performEncode i bytes r s) ∨
    (accessOf i = .read ∧ ∃ respond, ∀ s : State, s.w = w → exec i s = performRead i respond s) := by
  cases i with
  | enc16be v buf => exact .inl ⟨rfl, beBytes 2 v, .done, by simp [bytesNeeded], fun _ _ => rfl⟩
  | enc32be v buf => exact .inl ⟨rfl, beBytes 4 v, .done, by simp [bytesNeeded], fun _ _ => rfl⟩
  | enc64be v buf => exact .inl ⟨rfl, beBytes 8 v, .done, by simp [bytesNeeded], fun _ _ => rfl⟩
  | enc16le v buf => exact .inl ⟨rfl, leBytes 2 v, .done, by simp [bytesNeeded], fun _ _ => rfl⟩
  | enc32le v buf => exact .inl ⟨rfl, leBytes 4 v, .done, by simp [bytesNeeded], fun _ _ => rfl⟩
  | enc64le v buf => exact .inl ⟨rfl, leBytes 8 v, .done, by simp [bytesNeeded], fun _ _ => rfl⟩
  | dec16be buf => exact .inr ⟨rfl, fun bytes => .value16 (BitVec.ofNat 16 (beValue bytes)), fun _ _ => rfl⟩
  | dec32be buf => exact .inr ⟨rfl, fun bytes => .value32 (BitVec.ofNat 32 (beValue bytes)), fun _ _ => rfl⟩
  | dec64be buf => exact .inr ⟨rfl, fun bytes => .value64 (BitVec.ofNat 64 (beValue bytes)), fun _ _ => rfl⟩
  | dec16le buf => exact .inr ⟨rfl, fun bytes => .value16 (BitVec.ofNat 16 (leValue bytes)), fun _ _ => rfl⟩
  | dec32le buf => exact .inr ⟨rfl, fun bytes => .value32 (BitVec.ofNat 32 (leValue bytes)), fun _ _ => rfl⟩
  | dec64le buf => exact .inr ⟨rfl, fun bytes => .value64 (BitVec.ofNat 64 (leValue bytes)), fun _ _ => rfl⟩
  | encaddr a buf =>
    exact .inl ⟨rfl, beBytes w.bytes a, .width (widthTag w), by simp [bytesNeeded], fun s hs => by
      subst hs; exact if_pos hi⟩
  | encaddrp p buf =>
    exact .inl ⟨rfl, beBytes w.bytes (pointerToAddress p), .width (widthTag w), by simp [bytesNeeded], fun s hs => by
      subst hs; exact if_pos hi⟩
  | decaddr buf =>
    exact .inr ⟨rfl, fun bytes => .address (BitVec.ofNat 64 (beValue bytes)) (widthTag w), fun s hs => by subst hs; rfl⟩
  | crc32 buf n seed => exact .inr ⟨rfl, fun bytes => .crc (crc32Of seed bytes), fun _ _ => rfl⟩

/-- An operation whose operand has a bit above its port is refused before anything else. -/
theorem exec_of_not_wellFormed {i : Instr} {s : State} (hi : i.wellFormed s.w = false) :
    exec i s = .refused (.operandTooWide i.code) := by
  cases i with
  | encaddr a buf => exact if_neg (by rw [show s.w.fits a = false from hi]; decide)
  | encaddrp p buf => exact if_neg (by rw [show s.w.fits (pointerToAddress p) = false from hi]; decide)
  | _ => simp [Instr.wellFormed] at hi

/-- What a completed operation leaves, whichever it is. -/
theorem exec_next {i : Instr} {s t : State} (h : exec i s = .next t) :
    i.wellFormed s.w = true ∧ bytesNeeded s.w i ≤ i.view.cap ∧ s.clearFor (accessOf i) i.view.base (bytesNeeded s.w i) ∧
      ((accessOf i = .write ∧ ∃ bytes r, bytes.length = bytesNeeded s.w i ∧ t = (s.put i.view.base bytes).deliver r) ∨
       (accessOf i = .read ∧ ∃ r, t = s.deliver r)) := by
  cases hi : i.wellFormed s.w with
  | false => rw [exec_of_not_wellFormed hi] at h; cases h
  | true =>
    rcases exec_shape i s.w hi with ⟨ha, bytes, r, hl, hx⟩ | ⟨ha, respond, hx⟩
    · rw [hx s rfl, performEncode, perform_eq_next_iff] at h
      exact ⟨rfl, h.2.1, h.2.2, .inl ⟨ha, bytes, r, hl, h.1⟩⟩
    · rw [hx s rfl, performRead, perform_eq_next_iff] at h
      exact ⟨rfl, h.2.1, h.2.2, .inr ⟨ha, _, h.1⟩⟩

end Sys2Proof.Machine
end

