-- ==== Sys2Proof/Laws/PerInstr.lean ====
section
/-! SUPPORT. Per operation: the fields of its operation-select code (spec/30_encoding.md R36, R37, R38). -/

namespace Sys2Proof.Laws.CodeFields

/-- The fields R36 gives an operation, from its unit, its direction, its order and its size or source. -/
def fields : Instr → BitVec 2 × BitVec 1 × BitVec 1 × BitVec 2
  | .enc16be _ _ => (0b00, 0, 0, 0b01)
  | .enc32be _ _ => (0b00, 0, 0, 0b10)
  | .enc64be _ _ => (0b00, 0, 0, 0b11)
  | .enc16le _ _ => (0b00, 0, 1, 0b01)
  | .enc32le _ _ => (0b00, 0, 1, 0b10)
  | .enc64le _ _ => (0b00, 0, 1, 0b11)
  | .dec16be _ => (0b00, 1, 0, 0b01)
  | .dec32be _ => (0b00, 1, 0, 0b10)
  | .dec64be _ => (0b00, 1, 0, 0b11)
  | .dec16le _ => (0b00, 1, 1, 0b01)
  | .dec32le _ => (0b00, 1, 1, 0b10)
  | .dec64le _ => (0b00, 1, 1, 0b11)
  | .encaddr _ _ => (0b01, 0, 0, 0b00)
  | .encaddrp _ _ => (0b01, 0, 0, 0b01)
  | .decaddr _ => (0b01, 1, 0, 0b00)
  | .crc32 _ _ _ => (0b10, 0, 0, 0b00)

/-- The code of an operation's request is its fields `unit`, `dir`, `order`, `size` or `src`, laid out as R36 lays them out. -/
def Statement (i : Instr) : Prop :=
  (encode i).op = (fields i).1 ++ (fields i).2.1 ++ (fields i).2.2.1 ++ (fields i).2.2.2

theorem enc16be (v : BitVec 16) (buf : View) : Statement (.enc16be v buf) := by simp only [Statement, encode, Instr.code, fields]; decide
theorem enc32be (v : BitVec 32) (buf : View) : Statement (.enc32be v buf) := by simp only [Statement, encode, Instr.code, fields]; decide
theorem enc64be (v : BitVec 64) (buf : View) : Statement (.enc64be v buf) := by simp only [Statement, encode, Instr.code, fields]; decide
theorem enc16le (v : BitVec 16) (buf : View) : Statement (.enc16le v buf) := by simp only [Statement, encode, Instr.code, fields]; decide
theorem enc32le (v : BitVec 32) (buf : View) : Statement (.enc32le v buf) := by simp only [Statement, encode, Instr.code, fields]; decide
theorem enc64le (v : BitVec 64) (buf : View) : Statement (.enc64le v buf) := by simp only [Statement, encode, Instr.code, fields]; decide
theorem dec16be (buf : View) : Statement (.dec16be buf) := by simp only [Statement, encode, Instr.code, fields]; decide
theorem dec32be (buf : View) : Statement (.dec32be buf) := by simp only [Statement, encode, Instr.code, fields]; decide
theorem dec64be (buf : View) : Statement (.dec64be buf) := by simp only [Statement, encode, Instr.code, fields]; decide
theorem dec16le (buf : View) : Statement (.dec16le buf) := by simp only [Statement, encode, Instr.code, fields]; decide
theorem dec32le (buf : View) : Statement (.dec32le buf) := by simp only [Statement, encode, Instr.code, fields]; decide
theorem dec64le (buf : View) : Statement (.dec64le buf) := by simp only [Statement, encode, Instr.code, fields]; decide
theorem encaddr (a : BitVec 64) (buf : View) : Statement (.encaddr a buf) := by simp only [Statement, encode, Instr.code, fields]; decide
theorem encaddrp (p : BitVec 64) (buf : View) : Statement (.encaddrp p buf) := by simp only [Statement, encode, Instr.code, fields]; decide
theorem decaddr (buf : View) : Statement (.decaddr buf) := by simp only [Statement, encode, Instr.code, fields]; decide
theorem crc32 (buf : View) (n : Nat) (s : BitVec 32) : Statement (.crc32 buf n s) := by simp only [Statement, encode, Instr.code, fields]; decide

end Sys2Proof.Laws.CodeFields
end

