-- ==== Sys2Proof/Laws/Step.lean ====
section
/-! SUPPORT. Everything a step can do, said once. -/

namespace Sys2Proof.Machine

/-- What a completed operation leaves of the parts of the state that no operation touches. -/
theorem exec_frame {i : Instr} {s t : State} (h : exec i s = .next t) :
    t.w = s.w ∧ t.script = s.script ∧ t.inFlight = s.inFlight ∧ t.mark = s.mark := by
  obtain ⟨-, -, -, ⟨-, b, r, -, rfl⟩ | ⟨-, r, rfl⟩⟩ := exec_next h <;> simp

/-- A marked run has no step to a next state. -/
theorem mark_of_step {s t : State} (h : step s = .next t) : s.mark = none := by
  cases hm : s.mark with
  | none => rfl
  | some x => cases x <;> simp [step, advance, hm, Stop.outcome] at h

/-- The four ways a step reaches a next state: nothing is asked; an operation completes; the caller writes; the block is reset. -/
theorem step_next {s t : State} (h : step s = .next t) :
    (s.script = [] ∧ t = s) ∨
    (∃ r k rest i u, s.script = .request r k :: rest ∧ decode r = .ok i ∧ exec i (s.withScript rest) = .next u ∧
      t = u.tick.launch i k) ∨
    (∃ base bytes rest, s.script = .store base bytes :: rest ∧
      (s.withScript rest).conflict { access := .write, base := base, len := bytes.length } = none ∧
      t = ((s.withScript rest).put base bytes).tick) ∨
    ∃ rest, s.script = .reset :: rest ∧ s.inFlight = [] ∧ t = s.withScript rest := by
  have hm := mark_of_step h
  simp only [step, advance, hm] at h
  split at h
  · rename_i hs
    exact .inl ⟨hs, (Host.Outcome.next.inj h).symm⟩
  · rename_i a rest hs
    cases a with
    | request r k =>
      simp only [act, issue] at h
      split at h
      · rename_i e _
        cases e <;> cases h
      · rename_i i hi
        split at h <;> try cases h
        rename_i u hu
        exact .inr (.inl ⟨r, k, rest, i, u, hs, hi, hu, rfl⟩)
    | store base bytes =>
      simp only [act, callerStore] at h
      split at h
      · rename_i hc
        exact .inr (.inr (.inl ⟨base, bytes, rest, hs, hc, (Host.Outcome.next.inj h).symm⟩))
      · cases h
    | reset =>
      simp only [act, resetBlock] at h
      split at h
      · rename_i hc
        exact .inr (.inr (.inr ⟨rest, hs, hc, (Host.Outcome.next.inj h).symm⟩))
      · cases h

end Sys2Proof.Machine
end

