-- ==== Sys2Proof/Tests/Slice0.lean ====
section
/-! SUPPORT. Tests of the model on the spec's own examples and vectors (spec/95_test_vectors.md, and the encodings of
spec/30_encoding.md R36, R41), and for every statement with hypotheses a state that meets them. -/

open Sys2Proof Sys2Proof.Machine Sys2Proof.Claims

namespace Sys2Proof.Tests

/-- A block of width `w` and a buffer that holds `bytes` at address 0. -/
def holding (w : PtrWidth) (bytes : List Byte) : State :=
  { State.resetWith w with store := Memory.writeBytes [] 0 bytes }

/-- The buffer of the encode vectors: ten bytes 0xEE. -/
def ees (w : PtrWidth) : State := holding w (List.replicate 10 0xEE)

/-- The buffer of the decode vectors V16 to V21. -/
def upTo8 (w : PtrWidth) : State := holding w [0x01, 0x02, 0x03, 0x04, 0x05, 0x06, 0x07, 0x08]

/-- The first ten bytes of the store after an operation. -/
def bytesAfter (i : Instr) (s : State) : Option (List Byte) :=
  match exec i s with
  | .next t => some (t.store.readBytes 0 10)
  | .fault _ => none
  | .refused _ => none

/-- The response of an operation. -/
def response (i : Instr) (s : State) : Option Response :=
  match exec i s with
  | .next t => t.responses.head?
  | .fault _ => none
  | .refused _ => none

/-- What stopped an operation. -/
def stopOf : Host.Outcome State Fault Refusal → Option Stop
  | .next _ => none
  | .fault f => some (.fault f)
  | .refused r => some (.refused r)

/-- A request that carries a code and operands. -/
def ask (op : BitVec 6) (value : BitVec 64) (buf : View) : Request :=
  { op := op, value := value, buf := buf, length := 0, startValue := 0 }

/-! ## Well-formedness (R71, D6): the one check, with terms it refuses -/

theorem test_wellFormed_refuses_wide_address : (Instr.encaddr 0x100 ⟨0, 8⟩).wellFormed .w1 = false := by decide
theorem test_wellFormed_refuses_wide_pointer : (Instr.encaddrp 0x100000000 ⟨0, 8⟩).wellFormed .w4 = false := by decide
theorem test_wellFormed_accepts_widest : (Instr.encaddr 0xFF ⟨0, 8⟩).wellFormed .w1 = true ∧
    (Instr.encaddrp 0xFFFFFFFFFFFFFFFF ⟨0, 8⟩).wellFormed .w8 = true := by decide

/-! ## Decoding: each code put together from R36's fields `unit`, `dir`, `order` and `size` or `src` -/

theorem test_decode_enc16be : decode (ask (0b00#2 ++ 0b0#1 ++ 0b0#1 ++ 0b01#2) 0x1234 ⟨6, 2⟩) = .ok (.enc16be 0x1234 ⟨6, 2⟩) := by decide
theorem test_decode_enc32be : decode (ask (0b00#2 ++ 0b0#1 ++ 0b0#1 ++ 0b10#2) 0xDEADBEEF ⟨6, 4⟩) = .ok (.enc32be 0xDEADBEEF ⟨6, 4⟩) := by decide
theorem test_decode_enc64be : decode (ask (0b00#2 ++ 0b0#1 ++ 0b0#1 ++ 0b11#2) 0x0123456789ABCDEF ⟨6, 8⟩) = .ok (.enc64be 0x0123456789ABCDEF ⟨6, 8⟩) := by decide
theorem test_decode_enc16le : decode (ask (0b00#2 ++ 0b0#1 ++ 0b1#1 ++ 0b01#2) 0x1234 ⟨6, 2⟩) = .ok (.enc16le 0x1234 ⟨6, 2⟩) := by decide
theorem test_decode_enc32le : decode (ask (0b00#2 ++ 0b0#1 ++ 0b1#1 ++ 0b10#2) 0xDEADBEEF ⟨6, 4⟩) = .ok (.enc32le 0xDEADBEEF ⟨6, 4⟩) := by decide
theorem test_decode_enc64le : decode (ask (0b00#2 ++ 0b0#1 ++ 0b1#1 ++ 0b11#2) 0x0123456789ABCDEF ⟨6, 8⟩) = .ok (.enc64le 0x0123456789ABCDEF ⟨6, 8⟩) := by decide
theorem test_decode_dec16be : decode (ask (0b00#2 ++ 0b1#1 ++ 0b0#1 ++ 0b01#2) 0 ⟨6, 2⟩) = .ok (.dec16be ⟨6, 2⟩) := by decide
theorem test_decode_dec32be : decode (ask (0b00#2 ++ 0b1#1 ++ 0b0#1 ++ 0b10#2) 0 ⟨6, 4⟩) = .ok (.dec32be ⟨6, 4⟩) := by decide
theorem test_decode_dec64be : decode (ask (0b00#2 ++ 0b1#1 ++ 0b0#1 ++ 0b11#2) 0 ⟨6, 8⟩) = .ok (.dec64be ⟨6, 8⟩) := by decide
theorem test_decode_dec16le : decode (ask (0b00#2 ++ 0b1#1 ++ 0b1#1 ++ 0b01#2) 0 ⟨6, 2⟩) = .ok (.dec16le ⟨6, 2⟩) := by decide
theorem test_decode_dec32le : decode (ask (0b00#2 ++ 0b1#1 ++ 0b1#1 ++ 0b10#2) 0 ⟨6, 4⟩) = .ok (.dec32le ⟨6, 4⟩) := by decide
theorem test_decode_dec64le : decode (ask (0b00#2 ++ 0b1#1 ++ 0b1#1 ++ 0b11#2) 0 ⟨6, 8⟩) = .ok (.dec64le ⟨6, 8⟩) := by decide
theorem test_decode_encaddr : decode (ask (0b01#2 ++ 0b0#1 ++ 0b0#1 ++ 0b00#2) 0x20001000 ⟨4, 8⟩) = .ok (.encaddr 0x20001000 ⟨4, 8⟩) := by decide
theorem test_decode_encaddrp : decode (ask (0b01#2 ++ 0b0#1 ++ 0b0#1 ++ 0b01#2) 0x12345678 ⟨4, 8⟩) = .ok (.encaddrp 0x12345678 ⟨4, 8⟩) := by decide
theorem test_decode_decaddr : decode (ask (0b01#2 ++ 0b1#1 ++ 0b0#1 ++ 0b00#2) 0 ⟨4, 8⟩) = .ok (.decaddr ⟨4, 8⟩) := by decide
theorem test_decode_crc32 : decode { op := 0b10#2 ++ 0b0#1 ++ 0b0#1 ++ 0b00#2, value := 0, buf := ⟨0, 12⟩, length := 9, startValue := 0xDEADBEEF } =
    .ok (.crc32 ⟨0, 12⟩ 9 0xDEADBEEF) := by decide

/-- V80 to V85: reserved codes, one from each of R42's ranges and its ends. -/
theorem test_decode_reserved : ∀ op ∈ [0x00#6, 0x04, 0x08, 0x0C, 0x12, 0x14, 0x17, 0x19, 0x1F, 0x21, 0x28, 0x2F, 0x30, 0x3F],
    decode (ask op 0 ⟨0, 8⟩) = .error (.illegalOp op) := by decide

/-- V86: decoding comes before the capacity check. -/
theorem test_reserved_on_an_empty_view :
    stopOf (issue (ask 0x00 0 ⟨0, 0⟩) 0 (ees .w4)) = some (.fault (.illegalOp 0x00)) := by decide

/-- R71, U12: an operand wider than its port is refused, not cut. -/
theorem test_wide_operands_are_refused :
    stopOf (issue (ask 0x01 0x11234 ⟨0, 10⟩) 0 (ees .w4)) = some (.refused (.operandTooWide 0x01)) ∧
    stopOf (issue (ask 0x10 0x100000000 ⟨0, 10⟩) 0 (ees .w4)) = some (.refused (.operandTooWide 0x10)) ∧
    stopOf (issue (ask 0x10 0x0FFFFFFFF ⟨0, 10⟩) 0 (ees .w4)) = none := by decide

/-! ## EndianCodec -/

/-- V1, V3. -/
theorem test_enc16be : bytesAfter (.enc16be 0x1234 ⟨0, 10⟩) (ees .w4) = some [0x12, 0x34, 0xEE, 0xEE, 0xEE, 0xEE, 0xEE, 0xEE, 0xEE, 0xEE] ∧
    bytesAfter (.enc16be 0x00FF ⟨0, 10⟩) (ees .w4) = some [0x00, 0xFF, 0xEE, 0xEE, 0xEE, 0xEE, 0xEE, 0xEE, 0xEE, 0xEE] := by decide
/-- V26, V27. -/
theorem test_enc16be_capacity : bytesAfter (.enc16be 0x1234 ⟨0, 2⟩) (ees .w4) = some [0x12, 0x34, 0xEE, 0xEE, 0xEE, 0xEE, 0xEE, 0xEE, 0xEE, 0xEE] ∧
    stopOf (exec (.enc16be 0x1234 ⟨0, 1⟩) (ees .w4)) = some (.fault (.capacityViolation 0x01 2 1)) := by decide
/-- V2, V4. -/
theorem test_enc16le : bytesAfter (.enc16le 0x1234 ⟨0, 10⟩) (ees .w4) = some [0x34, 0x12, 0xEE, 0xEE, 0xEE, 0xEE, 0xEE, 0xEE, 0xEE, 0xEE] ∧
    bytesAfter (.enc16le 0x00FF ⟨0, 10⟩) (ees .w4) = some [0xFF, 0x00, 0xEE, 0xEE, 0xEE, 0xEE, 0xEE, 0xEE, 0xEE, 0xEE] := by decide
/-- V5, V7. -/
theorem test_enc32be : bytesAfter (.enc32be 0xDEADBEEF ⟨0, 10⟩) (ees .w4) = some [0xDE, 0xAD, 0xBE, 0xEF, 0xEE, 0xEE, 0xEE, 0xEE, 0xEE, 0xEE] ∧
    bytesAfter (.enc32be 0x00000100 ⟨0, 10⟩) (ees .w4) = some [0x00, 0x00, 0x01, 0x00, 0xEE, 0xEE, 0xEE, 0xEE, 0xEE, 0xEE] := by decide
/-- S7, in the middle of a buffer. -/
theorem test_enc32be_scenario : bytesAfter (.enc32be 0xAABBCCDD ⟨3, 4⟩) (ees .w4) = some [0xEE, 0xEE, 0xEE, 0xAA, 0xBB, 0xCC, 0xDD, 0xEE, 0xEE, 0xEE] := by decide
/-- V6, V8. -/
theorem test_enc32le : bytesAfter (.enc32le 0xDEADBEEF ⟨0, 10⟩) (ees .w4) = some [0xEF, 0xBE, 0xAD, 0xDE, 0xEE, 0xEE, 0xEE, 0xEE, 0xEE, 0xEE] ∧
    bytesAfter (.enc32le 0x00000100 ⟨0, 10⟩) (ees .w4) = some [0x00, 0x01, 0x00, 0x00, 0xEE, 0xEE, 0xEE, 0xEE, 0xEE, 0xEE] := by decide
/-- S7. -/
theorem test_enc32le_scenario : bytesAfter (.enc32le 0xAABBCCDD ⟨0, 4⟩) (ees .w4) = some [0xDD, 0xCC, 0xBB, 0xAA, 0xEE, 0xEE, 0xEE, 0xEE, 0xEE, 0xEE] := by decide
/-- V9, V11. -/
theorem test_enc64be : bytesAfter (.enc64be 0x0123456789ABCDEF ⟨0, 10⟩) (ees .w4) = some [0x01, 0x23, 0x45, 0x67, 0x89, 0xAB, 0xCD, 0xEF, 0xEE, 0xEE] ∧
    bytesAfter (.enc64be 0xFF00000000000001 ⟨0, 10⟩) (ees .w4) = some [0xFF, 0x00, 0x00, 0x00, 0x00, 0x00, 0x00, 0x01, 0xEE, 0xEE] := by decide
/-- V10, V12. -/
theorem test_enc64le : bytesAfter (.enc64le 0x0123456789ABCDEF ⟨0, 10⟩) (ees .w4) = some [0xEF, 0xCD, 0xAB, 0x89, 0x67, 0x45, 0x23, 0x01, 0xEE, 0xEE] ∧
    bytesAfter (.enc64le 0xFF00000000000001 ⟨0, 10⟩) (ees .w4) = some [0x01, 0x00, 0x00, 0x00, 0x00, 0x00, 0x00, 0xFF, 0xEE, 0xEE] := by decide
/-- V28. -/
theorem test_enc64le_capacity : stopOf (exec (.enc64le 0x1 ⟨0, 7⟩) (ees .w4)) = some (.fault (.capacityViolation 0x07 8 7)) := by decide

/-- V16. -/
theorem test_dec16be : response (.dec16be ⟨0, 8⟩) (upTo8 .w4) = some (.value16 0x0102) := by decide
/-- V24: the top bit is set and the result stays unsigned. -/
theorem test_dec16be_top_bit : response (.dec16be ⟨0, 4⟩) (holding .w4 [0xDE, 0xAD, 0xBE, 0xEF]) = some (.value16 0xDEAD) := by decide
/-- V17. -/
theorem test_dec16le : response (.dec16le ⟨0, 8⟩) (upTo8 .w4) = some (.value16 0x0201) := by decide
/-- V18. -/
theorem test_dec32be : response (.dec32be ⟨0, 8⟩) (upTo8 .w4) = some (.value32 0x01020304) := by decide
/-- V22. -/
theorem test_dec32be_dead : response (.dec32be ⟨0, 4⟩) (holding .w4 [0xDE, 0xAD, 0xBE, 0xEF]) = some (.value32 0xDEADBEEF) := by decide
/-- V19, V23. -/
theorem test_dec32le : response (.dec32le ⟨0, 8⟩) (upTo8 .w4) = some (.value32 0x04030201) ∧
    response (.dec32le ⟨0, 4⟩) (holding .w4 [0xDE, 0xAD, 0xBE, 0xEF]) = some (.value32 0xEFBEADDE) := by decide
/-- V29. -/
theorem test_dec32le_capacity : stopOf (exec (.dec32le ⟨0, 0⟩) (upTo8 .w4)) = some (.fault (.capacityViolation 0x0E 4 0)) := by decide
/-- V20. -/
theorem test_dec64be : response (.dec64be ⟨0, 8⟩) (upTo8 .w4) = some (.value64 0x0102030405060708) := by decide
/-- V25. -/
theorem test_dec64be_capacity : stopOf (exec (.dec64be ⟨0, 4⟩) (upTo8 .w4)) = some (.fault (.capacityViolation 0x0B 8 4)) := by decide
/-- V21. -/
theorem test_dec64le : response (.dec64le ⟨0, 8⟩) (upTo8 .w4) = some (.value64 0x0807060504030201) := by decide

/-! ## AddressCodec -/

/-- V60, V62, V63, V65: one row for each `W`. -/
theorem test_encaddr :
    bytesAfter (.encaddr 0xA5 ⟨0, 10⟩) (ees .w1) = some [0xA5, 0xEE, 0xEE, 0xEE, 0xEE, 0xEE, 0xEE, 0xEE, 0xEE, 0xEE] ∧
    bytesAfter (.encaddr 0x0001 ⟨0, 10⟩) (ees .w2) = some [0x00, 0x01, 0xEE, 0xEE, 0xEE, 0xEE, 0xEE, 0xEE, 0xEE, 0xEE] ∧
    bytesAfter (.encaddr 0x20001000 ⟨0, 10⟩) (ees .w4) = some [0x20, 0x00, 0x10, 0x00, 0xEE, 0xEE, 0xEE, 0xEE, 0xEE, 0xEE] ∧
    bytesAfter (.encaddr 0x12345678 ⟨0, 10⟩) (ees .w8) = some [0x00, 0x00, 0x00, 0x00, 0x12, 0x34, 0x56, 0x78, 0xEE, 0xEE] := by decide
/-- V60, V61, S8, V64: the width tag; V74: a short view. -/
theorem test_encaddr_tag : response (.encaddr 0xA5 ⟨0, 10⟩) (ees .w1) = some (.width 1) ∧
    response (.encaddr 0xBEEF ⟨0, 10⟩) (ees .w2) = some (.width 2) ∧ response (.encaddr 0x12345678 ⟨0, 4⟩) (ees .w4) = some (.width 4) ∧
    response (.encaddr 0x00007FFF12345678 ⟨0, 10⟩) (ees .w8) = some (.width 8) ∧
    stopOf (exec (.encaddr 0x12345678 ⟨0, 3⟩) (ees .w4)) = some (.fault (.capacityViolation 0x10 4 3)) := by decide
/-- V66. -/
theorem test_encaddrp : bytesAfter (.encaddrp 0x12345678 ⟨0, 10⟩) (ees .w4) = some [0x12, 0x34, 0x56, 0x78, 0xEE, 0xEE, 0xEE, 0xEE, 0xEE, 0xEE] ∧
    response (.encaddrp 0x12345678 ⟨0, 10⟩) (ees .w4) = some (.width 4) := by decide
/-- V69 to V72. -/
theorem test_decaddr :
    let s := fun w => holding w [0x12, 0x34, 0x56, 0x78, 0x9A, 0xBC, 0xDE, 0xF0]
    response (.decaddr ⟨0, 8⟩) (s .w1) = some (.address 0x12 1) ∧ response (.decaddr ⟨0, 8⟩) (s .w2) = some (.address 0x1234 2) ∧
    response (.decaddr ⟨0, 8⟩) (s .w4) = some (.address 0x12345678 4) ∧
    response (.decaddr ⟨0, 8⟩) (s .w8) = some (.address 0x123456789ABCDEF0 8) := by decide
/-- V75, V76. -/
theorem test_decaddr_capacity : stopOf (exec (.decaddr ⟨0, 4⟩) (upTo8 .w8)) = some (.fault (.capacityViolation 0x18 8 4)) ∧
    stopOf (exec (.decaddr ⟨0, 0⟩) (upTo8 .w1)) = some (.fault (.capacityViolation 0x18 1 0)) := by decide

/-! ## FrameChecksum -/

/-- V32, the trace of R94. -/
theorem test_crcBitStep_trace : (List.range 9).map (fun n => crcBitStep^[n] 0xFFFFFFCE) =
    [0xFFFFFFCE, 0x7FFFFFE7, 0xD2477CD3, 0x849B3D49, 0xAFF51D84, 0x57FA8EC2, 0x2BFD4761, 0xF8462090, 0x7C231048] := by decide +kernel
/-- V31, V33, V37, V44, V47, V50. -/
theorem test_crc32_vectors :
    crc32Of 0 [0x31, 0x32, 0x33, 0x34, 0x35, 0x36, 0x37, 0x38, 0x39] = 0xCBF43926 ∧ crc32Of 0 [0x00] = 0xD202EF8D ∧
    crc32Of 0x9BE3E0A3 [0x35, 0x36, 0x37, 0x38, 0x39] = 0xCBF43926 ∧
    crc32Of 0 ((List.range 16).map (BitVec.ofNat 8)) = 0xCECEE288 ∧ crc32Of 0xDEADBEEF [0x61] = 0xD8DCEC14 ∧ crc32Of 0 [] = 0 := by decide +kernel
/-- V32, V45, V49. -/
theorem test_crc32 : response (.crc32 ⟨0, 1⟩ 1 0) (holding .w4 [0x31]) = some (.crc 0x83DCEFB7) ∧
    response (.crc32 ⟨0, 0⟩ 0 0x12345678) (holding .w4 [0x31]) = some (.crc 0x12345678) ∧
    stopOf (exec (.crc32 ⟨0, 4⟩ 5 0) (upTo8 .w4)) = some (.fault (.capacityViolation 0x20 5 4)) := by decide +kernel

/-! ## Steps -/

/-- Every row of the table runs as the first step after reset, whatever `W` the block was built with. -/
theorem test_every_row_runs (w : PtrWidth) :
    ∀ op ∈ [0x01, 0x02, 0x03, 0x05, 0x06, 0x07, 0x09, 0x0A, 0x0B, 0x0D, 0x0E, 0x0F, 0x10, 0x11, 0x18, 0x20],
      stopOf (step ((State.resetWith w).withFetchWord 8 op)) = none := by cases w <;> decide
/-- R110: with nothing asked, the machine after reset stays as it is. -/
theorem test_idle : step State.reset = .next State.reset := rfl
/-- P1, step 2: one request of a script is taken off it and performed. -/
theorem test_step_of_a_script :
    let s := { ees .w4 with script := [.request (ask 0x01 0x0008 ⟨2, 8⟩) 0, .reset] }
    step s = .next { s with store := s.store.writeBytes 2 [0x00, 0x08], script := [.reset], responses := [.done] } := rfl

/-- Two callers: ENC32BE at offset 0 is in flight during the next act. -/
def busy : State := { upTo8 .w4 with inFlight := [⟨.enc32be 0xDEADBEEF ⟨0, 4⟩, 1⟩] }
/-- R106, R32: an overlapping read is refused as a race, a disjoint one completes; a byte both only read is no conflict. -/
theorem test_race : stopOf (exec (.dec16be ⟨3, 2⟩) busy) = some (.refused (.raceRefused (.operation (ask 0x09 0 ⟨3, 2⟩)) (ask 0x02 0xDEADBEEF ⟨0, 4⟩))) ∧
    response (.dec16be ⟨4, 2⟩) busy = some (.value16 0x0506) ∧
    response (.dec16be ⟨3, 2⟩) { busy with inFlight := [⟨.dec32be ⟨0, 4⟩, 1⟩] } = some (.value16 0x0405) := by decide
/-- R111: there is no reset inside an operation in flight. -/
theorem test_reset_in_flight : stopOf (resetBlock busy) = some (.refused .resetMidOperation) := by decide
/-- Log entry 10: an overlap past the last act falls on no act; the run is at its end and the response is there. -/
theorem test_overlap_past_the_end :
    let s := { upTo8 .w4 with script := [.request (ask 0x09 0 ⟨0, 2⟩) 5] }
    (State.runFor 2 s).finished ∧ (State.runFor 2 s).responses = [.value16 0x0102] ∧ (State.runFor 2 s).inFlight = [⟨.dec16be ⟨0, 2⟩, 5⟩] :=
  ⟨⟨rfl, rfl⟩, rfl, rfl⟩
/-- P1, step 4: the caller copies its payload; not over an operation in flight (R118). -/
theorem test_caller_store :
    (match callerStore 8 [0xDE, 0xAD] (ees .w4) with | .next t => some (t.store.readBytes 7 3) | _ => none) = some [0xEE, 0xDE, 0xAD] ∧
    stopOf (callerStore 3 [0xDE] busy) = some (.refused (.raceRefused (.callerStore 3 [0xDE]) (ask 0x02 0xDEADBEEF ⟨0, 4⟩))) := by decide
/-- Writing what an unlisted address reads as takes the entry out. -/
theorem test_write_unlisted : Memory.write [(3, 0xEE)] 3 0x00 = [] := by decide

/-! ## Witnesses: for every statement with hypotheses a state and operands that meet them, one for each clause -/

/-- A block of width `w` with the bytes 01 to 08 at 0, while ENC64BE at 16 and DEC32LE at 24 are in flight on other instances. -/
def shared (w : PtrWidth) : State :=
  { upTo8 w with inFlight := [⟨.enc64be 0x0123456789ABCDEF ⟨16, 8⟩, 2⟩, ⟨.dec32le ⟨24, 4⟩, 1⟩] }

theorem shared_wf (w : PtrWidth) : (shared w).store.wf := by cases w <;> decide

/-- Nothing in flight reaches the first 16 bytes. -/
theorem shared_clear (w : PtrWidth) (acc : Access) (base n : Nat) (h : base + n ≤ 16) : (shared w).clearFor acc base n := by
  intro g hg hc
  obtain ⟨-, a, h1, h2⟩ := hc
  simp only [shared, List.mem_cons, List.not_mem_nil, or_false] at hg
  rcases hg with rfl | rfl <;> simp only [footprintOf, bytesNeeded, Instr.view] at h1 h2 <;> omega

/-- A single caller's block has nothing in flight. -/
theorem alone_clear (w : PtrWidth) (bytes : List Byte) (acc : Access) (base n : Nat) : (holding w bytes).clearFor acc base n := by
  intro g hg
  cases hg

/-- What `Encodes` asks for `n` bytes, in each of its two clauses: views of capacity `n - 1` and `n`. -/
def CanEncode (w : PtrWidth) (n : Nat) : Prop :=
  (shared w).w = w ∧ (shared w).store.wf ∧ (View.mk 3 (n - 1)).cap < n ∧ n ≤ (View.mk 3 n).cap ∧ (shared w).clearFor .write 3 n
theorem can_encode (w : PtrWidth) (n : Nat) (h : 0 < n) (h8 : n ≤ 8) : CanEncode w n :=
  ⟨rfl, shared_wf w, by simp; omega, le_refl n, shared_clear w _ _ _ (by omega)⟩

/-- What `Reads` asks for `n` bytes, in each of its two clauses. -/
def CanRead (w : PtrWidth) (n : Nat) : Prop :=
  (shared w).w = w ∧ (View.mk 3 (n - 1)).cap < n ∧ n ≤ (View.mk 3 n).cap ∧ (shared w).clearFor .read 3 n
theorem can_read (w : PtrWidth) (n : Nat) (h : 0 < n) (h8 : n ≤ 8) : CanRead w n :=
  ⟨rfl, by simp; omega, le_refl n, shared_clear w _ _ _ (by omega)⟩

theorem witness_Enc16beWritesMostSignificantByteFirst (w : PtrWidth) : CanEncode w 2 := can_encode w 2 (by decide) (by decide)
theorem witness_Enc32beWritesMostSignificantByteFirst (w : PtrWidth) : CanEncode w 4 := can_encode w 4 (by decide) (by decide)
theorem witness_Enc64beWritesMostSignificantByteFirst (w : PtrWidth) : CanEncode w 8 := can_encode w 8 (by decide) (by decide)
theorem witness_Enc16leWritesLeastSignificantByteFirst (w : PtrWidth) : CanEncode w 2 := can_encode w 2 (by decide) (by decide)
theorem witness_Enc32leWritesLeastSignificantByteFirst (w : PtrWidth) : CanEncode w 4 := can_encode w 4 (by decide) (by decide)
theorem witness_Enc64leWritesLeastSignificantByteFirst (w : PtrWidth) : CanEncode w 8 := can_encode w 8 (by decide) (by decide)
theorem witness_Dec16beReadsMostSignificantByteFirst (w : PtrWidth) : CanRead w 2 := can_read w 2 (by decide) (by decide)
theorem witness_Dec32beReadsMostSignificantByteFirst (w : PtrWidth) : CanRead w 4 := can_read w 4 (by decide) (by decide)
theorem witness_Dec64beReadsMostSignificantByteFirst (w : PtrWidth) : CanRead w 8 := can_read w 8 (by decide) (by decide)
theorem witness_Dec16leReadsLeastSignificantByteFirst (w : PtrWidth) : CanRead w 2 := can_read w 2 (by decide) (by decide)
theorem witness_Dec32leReadsLeastSignificantByteFirst (w : PtrWidth) : CanRead w 4 := can_read w 4 (by decide) (by decide)
theorem witness_Dec64leReadsLeastSignificantByteFirst (w : PtrWidth) : CanRead w 8 := can_read w 8 (by decide) (by decide)
theorem witness_EndianCodecRoundTrips (w : PtrWidth) : CanEncode w 2 ∧ CanEncode w 4 ∧ CanEncode w 8 :=
  ⟨can_encode w 2 (by decide) (by decide), can_encode w 4 (by decide) (by decide), can_encode w 8 (by decide) (by decide)⟩
theorem witness_BigEndianMirrorsLittleEndian (w : PtrWidth) : CanEncode w 2 ∧ CanEncode w 4 ∧ CanEncode w 8 := witness_EndianCodecRoundTrips w
theorem witness_CrossedOrdersSwapTheBytes (w : PtrWidth) : (CanEncode w 2 ∧ CanEncode w 4 ∧ CanEncode w 8) ∧ Reverses 2 0xAABB#16 0xBBAA :=
  ⟨witness_EndianCodecRoundTrips w, by unfold Reverses; decide⟩
theorem witness_BoundaryValuesRoundTrip : (CanEncode .w4 2 ∧ CanEncode .w4 4 ∧ CanEncode .w4 8) ∧
    (shared .w4).clearFor .read 8 8 ∧ (∀ k < 8, (shared .w4).store.read (8 + k) = 0x00) ∧
    (ees .w4).clearFor .read 0 2 ∧ ∀ k < 8, (holding .w4 (List.replicate 8 0xFF)).store.read (0 + k) = 0xFF :=
  ⟨witness_EndianCodecRoundTrips .w4, shared_clear _ _ _ _ (by decide), by decide, alone_clear _ _ _ _ _, by decide⟩
theorem witness_EncodingIsABijection : (2 = 2 ∨ 2 = 4 ∨ 2 = 8) ∧ ([0x12, 0x34] : List Byte).length = 2 := by decide

theorem witness_EncaddrWritesWBytesAndReturnsW : (CanEncode .w1 1 ∧ CanEncode .w2 2 ∧ CanEncode .w4 4 ∧ CanEncode .w8 8) ∧
    2 ^ (8 * (shared .w1).w.bytes) ≤ (0x100#64).toNat :=
  ⟨⟨can_encode _ 1 (by decide) (by decide), can_encode _ 2 (by decide) (by decide), can_encode _ 4 (by decide) (by decide),
    can_encode _ 8 (by decide) (by decide)⟩, by decide⟩
theorem witness_EncaddrpEncodesThePointerAsAnAddress : (CanEncode .w1 1 ∧ CanEncode .w2 2 ∧ CanEncode .w4 4 ∧ CanEncode .w8 8) ∧
    2 ^ (8 * (shared .w4).w.bytes) ≤ (0x100000000#64).toNat ∧ (shared .w4).w.fits 0xFFFFFFFF = true :=
  ⟨witness_EncaddrWritesWBytesAndReturnsW.1, by decide, by decide⟩
theorem witness_DecaddrReadsWBytesAndReturnsW : CanRead .w1 1 ∧ CanRead .w2 2 ∧ CanRead .w4 4 ∧ CanRead .w8 8 :=
  ⟨can_read _ 1 (by decide) (by decide), can_read _ 2 (by decide) (by decide), can_read _ 4 (by decide) (by decide),
    can_read _ 8 (by decide) (by decide)⟩
theorem witness_EveryWidthTagIsW :
    (∃ t, exec (.encaddr 0xFFFF ⟨0, 2⟩) (shared .w2) = .next t ∧ t.responses.head? = some (.width 2)) ∧
    ∃ t, exec (.decaddr ⟨0, 2⟩) (shared .w2) = .next t ∧ t.responses.head? = some (.address 0x0102 2) := ⟨⟨_, rfl, rfl⟩, ⟨_, rfl, rfl⟩⟩
theorem witness_AddressRoundTrips (w : PtrWidth) : (shared w).store.wf ∧ (shared w).w.bytes ≤ (View.mk 0 w.bytes).cap ∧
    (shared w).clearFor .write 0 (shared w).w.bytes ∧ (shared w).w.fits 0xFF = true :=
  ⟨shared_wf w, le_refl w.bytes, shared_clear w _ _ _ (by cases w <;> decide), by cases w <;> decide⟩
theorem witness_AddressCodecAgreesWithEndianCodec (w : PtrWidth) : (shared w).w = w ∧ (shared w).w.bytes ≤ (View.mk 0 w.bytes).cap ∧
    (shared w).clearFor .write 0 (shared w).w.bytes := ⟨rfl, (witness_AddressRoundTrips w).2.1, (witness_AddressRoundTrips w).2.2.1⟩

theorem witness_CrcBitStepShiftsAndFolds : (0 < 32) ∧ (31 < 32) := by decide
theorem witness_Crc32FoldsTheBytesInOrder : (View.mk 0 7).cap < 8 ∧ 8 ≤ (View.mk 0 8).cap ∧ (shared .w4).clearFor .read 0 8 ∧
    ∃ acc : Nat → BitVec 32, acc 0 = ~~~ 0x9BE3E0A3#32 ∧
      ∀ k < 8, acc (k + 1) = crcByteStep (acc k) ((shared .w4).store.read (0 + k)) :=
  ⟨by decide, by decide, shared_clear _ _ _ _ (by decide),
    Nat.rec (~~~ 0x9BE3E0A3#32) fun k a => crcByteStep a ((shared .w4).store.read (0 + k)), rfl, fun _ _ => rfl⟩
theorem witness_Crc32ChainsThroughTheSeed : 4 ≤ (View.mk 0 4).cap ∧ 4 ≤ (View.mk 4 4).cap ∧ 4 + 4 ≤ (View.mk 0 8).cap ∧
    (shared .w4).clearFor .read 0 4 ∧ (shared .w4).clearFor .read 4 4 ∧ (shared .w4).clearFor .read 0 8 ∧
    (∀ k < 4, (shared .w4).store.read (0 + k) = (shared .w4).store.read (0 + k)) ∧
    ∀ k < 4, (shared .w4).store.read (0 + 4 + k) = (shared .w4).store.read (4 + k) :=
  ⟨by decide, by decide, by decide, shared_clear _ _ _ _ (by decide), shared_clear _ _ _ _ (by decide), shared_clear _ _ _ _ (by decide),
    by decide, by decide⟩
theorem witness_Crc32KnownVectors :
    let s := holding .w4 [0x31, 0x32, 0x33, 0x34, 0x35, 0x36, 0x37, 0x38, 0x39]
    9 ≤ (View.mk 0 9).cap ∧ s.clearFor .read 0 9 ∧ ∀ k < 9, s.store.read (0 + k) = BitVec.ofNat 8 (0x31 + k) :=
  ⟨by decide, alone_clear _ _ _ _ _, by decide⟩
theorem witness_Crc32OfZeroBytes :
    let s := { shared .w4 with store := (shared .w4).store.writeBytes 8 [0x00, 0x00] }
    2 ≤ (View.mk 8 2).cap ∧ s.clearFor .read 8 2 ∧ (∀ k < 2, s.store.read (8 + k) = 0x00) ∧ s.clearFor .read 8 1 ∧ s.store.read 8 = 0x00 :=
  ⟨by decide, shared_clear .w4 .read 8 2 (by decide), by decide, shared_clear .w4 .read 8 1 (by decide), by decide⟩
theorem witness_Crc32DependsOnTheBytesOnly : 2 ≤ (View.mk 3 2).cap ∧ 2 ≤ (View.mk 0 2).cap ∧ (shared .w4).clearFor .read 3 2 ∧
    (holding .w8 [0x04, 0x05]).clearFor .read 0 2 ∧
    ∀ k < 2, (shared .w4).store.read (3 + k) = (holding .w8 [0x04, 0x05]).store.read (0 + k) :=
  ⟨by decide, by decide, shared_clear _ _ _ _ (by decide), alone_clear _ _ _ _ _, by decide⟩
theorem witness_LittleEndianTrailerLeavesAConstant : (shared .w4).store.wf ∧ 3 + 4 ≤ (View.mk 0 7).cap ∧
    (shared .w4).clearFor .read 0 (3 + 4) ∧ (shared .w4).clearFor .write (0 + 3) 4 :=
  ⟨shared_wf _, by decide, shared_clear _ _ _ _ (by decide), shared_clear _ _ _ _ (by decide)⟩
theorem witness_OneChangedByteChangesTheChecksum :
    let s := holding .w4 [0x31, 0x32, 0x33, 0x31, 0x3A, 0x33]
    3 ≤ (View.mk 0 3).cap ∧ 3 ≤ (View.mk 3 3).cap ∧ s.clearFor .read 0 3 ∧ s.clearFor .read 3 3 ∧ 1 < 3 ∧
    s.store.read (0 + 1) ≠ s.store.read (3 + 1) ∧ ∀ k < 3, k ≠ 1 → s.store.read (0 + k) = s.store.read (3 + k) :=
  ⟨by decide, by decide, alone_clear _ _ _ _ _, alone_clear _ _ _ _ _, by decide, by decide, by decide⟩

/-- A script of one request with the code `op`, in front of nothing, on the block `shared`. -/
def asking (w : PtrWidth) (op : BitVec 6) (value : BitVec 64) (buf : View) : State :=
  { shared w with script := [.request (ask op value buf) 0] }

theorem witness_ReservedCodesFaultWhateverTheView :
    (asking .w4 0x3F 0 ⟨0, 0⟩).mark = none ∧ (asking .w4 0x3F 0 ⟨0, 0⟩).script = .request (ask 0x3F 0 ⟨0, 0⟩) 0 :: [] ∧
    ReservedCode (0x3F#6).toNat ∧ ReservedCode (0x00#6).toNat ∧ ReservedCode (0x12#6).toNat ∧ ReservedCode (0x17#6).toNat ∧
    ReservedCode (0x19#6).toNat ∧ ReservedCode (0x21#6).toNat ∧ ¬ ReservedCode (0x18#6).toNat ∧ ¬ ReservedCode (0x20#6).toNat := by
  refine ⟨rfl, rfl, ?_⟩
  simp [ReservedCode]
theorem witness_AcceptedRequestsAreEncodings : decode (ask 0x01 0xFFFF ⟨0, 2⟩) = .ok (.enc16be 0xFFFF ⟨0, 2⟩) := by decide
theorem witness_StepRunsTheDecodedOperation : (asking .w4 0x18 0 ⟨0, 4⟩).mark = none ∧
    (asking .w4 0x18 0 ⟨0, 4⟩).script = .request (ask 0x18 0 ⟨0, 4⟩) 0 :: [] ∧ decode (ask 0x18 0 ⟨0, 4⟩) = .ok (.decaddr ⟨0, 4⟩) :=
  ⟨rfl, rfl, rfl⟩
theorem witness_SingleCallerStepsAreOperations :
    let s := { upTo8 .w4 with script := [.request (ask 0x09 0 ⟨0, 2⟩) 0, .reset] }
    s.mark = none ∧ SingleCaller s ∧ s.script = .request (ask 0x09 0 ⟨0, 2⟩) 0 :: [.reset] ∧ decode (ask 0x09 0 ⟨0, 2⟩) = .ok (.dec16be ⟨0, 2⟩) ∧
    ∃ t, step s = .next t :=
  ⟨rfl, ⟨rfl, by simp +contextual⟩, rfl, rfl, _, rfl⟩

theorem witness_EveryOperationKeepsItsFrame : (shared .w4).store.wf ∧ (∃ t, exec (.dec16be ⟨0, 2⟩) (shared .w4) = .next t) ∧
    (∃ t, exec (.encaddr 0x20001000 ⟨3, 4⟩) (shared .w4) = .next t) ∧ (ees .w4).store.wf ∧ (ees .w4).w = (shared .w4).w ∧
    (∃ t, exec (.encaddr 0x20001000 ⟨3, 4⟩) (ees .w4) = .next t) ∧ accessOf (.encaddr 0x20001000 ⟨3, 4⟩) = .write :=
  ⟨shared_wf _, ⟨_, rfl⟩, ⟨_, rfl⟩, by decide, rfl, ⟨_, rfl⟩, rfl⟩
theorem witness_OperationsSeeOnlyTheirViewAndW : (shared .w2).store.wf ∧ (holding .w2 [0x01, 0x02]).store.wf ∧
    (shared .w2).w = (holding .w2 [0x01, 0x02]).w ∧
    (∀ k < 2, (shared .w2).store.read (0 + k) = (holding .w2 [0x01, 0x02]).store.read (0 + k)) ∧
    (∃ t, exec (.decaddr ⟨0, 5⟩) (shared .w2) = .next t) ∧ ∃ t, exec (.decaddr ⟨0, 5⟩) (holding .w2 [0x01, 0x02]) = .next t :=
  ⟨shared_wf _, by decide, rfl, by decide, ⟨_, rfl⟩, ⟨_, rfl⟩⟩
/-- For the second clause: ENCADDR at 8 is in flight and DEC16BE at 6 completes whether it touches 1 byte or 8. -/
theorem witness_WidthMattersToAddressCodecOnly : (Instr.crc32 ⟨0, 8⟩ 8 0).code.extractLsb 5 4 ≠ 0b01#2 ∧
    (Instr.dec16be ⟨6, 2⟩).code.extractLsb 5 4 ≠ 0b01#2 ∧
    (∀ g ∈ (shared .w1).inFlight, g.instr.code.extractLsb 5 4 ≠ 0b01#2) ∧
    let s := fun w => { upTo8 w with inFlight := [⟨.encaddr 0x12 ⟨8, 8⟩, 1⟩] }
    { s .w1 with w := .w8 } = s .w8 ∧ (∃ t, exec (.dec16be ⟨6, 2⟩) (s .w1) = .next t) ∧ ∃ u, exec (.dec16be ⟨6, 2⟩) (s .w8) = .next u :=
  ⟨by decide, by decide, by decide, rfl, ⟨_, rfl⟩, ⟨_, rfl⟩⟩
/-- R27 with R106: what an AddressCodec operation in flight touches depends on `W`, and so does a conflict with it. -/
theorem test_race_depends_on_W :
    let s := fun w => { upTo8 w with inFlight := [⟨.encaddr 0x12 ⟨0, 8⟩, 1⟩] }
    response (.dec16be ⟨4, 2⟩) (s .w1) = some (.value16 0x0506) ∧
    stopOf (exec (.dec16be ⟨4, 2⟩) (s .w8)) = some (.refused (.raceRefused (.operation (ask 0x09 0 ⟨4, 2⟩)) (ask 0x10 0x12 ⟨0, 8⟩))) := by decide
theorem witness_ShortViewsFault : (Instr.encaddr 0xFFFF ⟨16, 1⟩).wellFormed (shared .w2).w = true ∧
    (Instr.encaddr 0xFFFF ⟨16, 1⟩).view.cap < bytesNeeded (shared .w2).w (.encaddr 0xFFFF ⟨16, 1⟩) ∧ (asking .w2 0x10 0xFFFF ⟨16, 1⟩).mark = none ∧
    (asking .w2 0x10 0xFFFF ⟨16, 1⟩).script = .request (encode (.encaddr 0xFFFF ⟨16, 1⟩)) 0 :: [] := by decide
theorem witness_OperationsCompleteExactlyUnderTheContract : (shared .w4).admits (.enc64le 0x1 ⟨8, 8⟩) ∧
    ¬ (shared .w4).admits (.enc64le 0x1 ⟨8, 7⟩) ∧ ¬ (shared .w4).admits (.enc64le 0x1 ⟨9, 8⟩) := by
  refine ⟨⟨rfl, by decide, shared_clear .w4 .write 8 8 (by decide)⟩, fun h => absurd h.2.1 (by decide), fun h => ?_⟩
  exact h.2.2 _ (List.mem_cons_self ..) ⟨.inl rfl, 16, by decide, by decide⟩
theorem witness_ConflictingOperationsAreRefused : (Instr.dec16be ⟨15, 2⟩).wellFormed (shared .w4).w = true ∧
    bytesNeeded (shared .w4).w (.dec16be ⟨15, 2⟩) ≤ (Instr.dec16be ⟨15, 2⟩).view.cap ∧
    (∃ g ∈ (shared .w4).inFlight, (footprintOf (shared .w4).w g.instr).clash (footprintOf (shared .w4).w (.dec16be ⟨15, 2⟩))) ∧
    ¬ ∃ g ∈ (shared .w4).inFlight, (footprintOf (shared .w4).w g.instr).clash (footprintOf (shared .w4).w (.dec16be ⟨14, 2⟩)) :=
  ⟨rfl, by decide, ⟨_, List.mem_cons_self .., .inl rfl, 16, by decide, by decide⟩,
    fun ⟨g, hg, hc⟩ => shared_clear .w4 .read 14 2 (by decide) g hg hc⟩
theorem witness_NonConflictingOperationsCommute : (shared .w4).store.wf ∧ (shared .w4).admits (.enc32be 0xDEADBEEF ⟨0, 4⟩) ∧
    (shared .w4).admits (.encaddrp 0x12345678 ⟨4, 4⟩) ∧
    ¬ (footprintOf (shared .w4).w (.enc32be 0xDEADBEEF ⟨0, 4⟩)).clash (footprintOf (shared .w4).w (.encaddrp 0x12345678 ⟨4, 4⟩)) := by
  refine ⟨shared_wf _, ⟨rfl, by decide, shared_clear .w4 .write 0 4 (by decide)⟩,
    ⟨by decide, by decide, shared_clear .w4 .write 4 4 (by decide)⟩, ?_⟩
  rw [← Footprint.conflicts_iff_clash]
  decide

theorem witness_StepsNeverChangeW : ∃ t, step (asking .w2 0x18 0 ⟨0, 2⟩) = .next t := ⟨_, rfl⟩
theorem witness_StepsKeepTheStoreCanonical : (asking .w4 0x01 0x0100 ⟨0, 2⟩).store.wf ∧ ∃ t, step (asking .w4 0x01 0x0100 ⟨0, 2⟩) = .next t :=
  ⟨shared_wf .w4, _, rfl⟩
theorem witness_FlightsNeverConflict :
    let s := { shared .w4 with script := [.request (ask 0x0A 0 ⟨24, 4⟩) 3] }
    FlightsApart s ∧ ∃ t, step s = .next t ∧ t.inFlight.length = 2 := by
  refine ⟨?_, _, rfl, rfl⟩
  refine List.Pairwise.cons (fun g hg => ?_) (List.pairwise_singleton ..)
  rw [List.mem_singleton.mp hg, ← Footprint.conflicts_iff_clash]
  decide
theorem witness_MarkedRunsAreOver : { shared .w4 with mark := some (.fault (.illegalOp 0x00)) }.mark = some (.fault (.illegalOp 0x00)) := rfl
theorem witness_StopsLeaveAllButTheMark : (asking .w4 0x09 0 ⟨0, 1⟩).mark = none ∧
    step (asking .w4 0x09 0 ⟨0, 1⟩) = .fault (.capacityViolation 0x09 2 1) ∧
    step (asking .w4 0x09 0 ⟨15, 2⟩) = .refused (.raceRefused (.operation (ask 0x09 0 ⟨15, 2⟩)) (ask 0x03 0x0123456789ABCDEF ⟨16, 8⟩)) := ⟨rfl, rfl, rfl⟩
theorem witness_ResetHasNoArchitecturalEffect :
    let s := { upTo8 .w4 with script := [.reset] }
    let b := { shared .w4 with script := [.reset] }
    (s.mark = none ∧ s.script = .reset :: [] ∧ s.inFlight = []) ∧ b.mark = none ∧ b.script = .reset :: [] ∧ b.inFlight ≠ [] := by decide
theorem witness_CallerWritesItsOwnBuffers :
    let s := fun base => { shared .w4 with script := [.store base [0xDE, 0xAD]] }
    (s 14).mark = none ∧ (s 14).store.wf ∧ (s 14).script = .store 14 [0xDE, 0xAD] :: [] ∧ (s 14).clearFor .write 14 2 ∧
    ¬ (s 15).clearFor .write 15 2 :=
  ⟨rfl, shared_wf .w4, rfl, shared_clear .w4 .write 14 2 (by decide),
    fun h => h _ (List.mem_cons_self ..) ⟨.inl rfl, 16, by decide, by decide⟩⟩
theorem witness_ExcessOperandBitsAreRefused : (asking .w1 0x10 0x100 ⟨0, 1⟩).mark = none ∧
    (asking .w1 0x10 0x100 ⟨0, 1⟩).script = .request (ask 0x10 0x100 ⟨0, 1⟩) 0 :: [] ∧
    2 ^ 16 ≤ (0x10000#64).toNat ∧ 2 ^ 32 ≤ (0x100000000#64).toNat ∧ 2 ^ (8 * (asking .w1 0x10 0x100 ⟨0, 1⟩).w.bytes) ≤ (0x100#64).toNat ∧
    ¬ ReservedCode (0x09#6).toNat ∧ (0x09#6).getLsbD 3 = true ∧ ¬ ReservedCode (0x03#6).toNat ∧ 0x03#6 ≠ 0x20 := by
  refine ⟨rfl, rfl, by decide, by decide, by decide, ?_, by decide, ?_, by decide⟩ <;> simp [ReservedCode]

end Sys2Proof.Tests
end

section
/-! SUPPORT. What one act of the caller and one operation do to `W`, and what an operation can see of the state
(spec/10_state.md R10, R14, R15). -/

namespace Sys2Proof.Machine

/-! ## Steps -/

/-- An unmarked run performs the act at the head of its script. -/
theorem step_of_script {s : State} {a : CallerAct} {rest : List CallerAct} (hm : s.mark = none) (hs : s.script = a :: rest) :
    step s = act a (s.withScript rest) := by
  simp only [step, advance, hm, hs]

theorem resetBlock_of_idle {s : State} (h : s.inFlight = []) : resetBlock s = .next s := if_pos h

theorem resetBlock_of_busy {s : State} (h : s.inFlight ≠ []) : resetBlock s = .refused .resetMidOperation := if_neg h

/-! ## The bytes written (R10) -/

/-- Inside the bytes written two stores read alike, whatever they held before. -/
theorem Memory.read_writeBytes_agree {m m' : Memory} (h : m.wf) (h' : m'.wf) {base k : Nat} {bytes : List Byte}
    (hk : k < bytes.length) : (m.writeBytes base bytes).read (base + k) = (m'.writeBytes base bytes).read (base + k) := by
  rw [Memory.read_writeBytes_inside h hk, Memory.read_writeBytes_inside h' hk]

/-! ## Operations that are not of AddressCodec (R15)

Format A is `op[5:4]` = 0b01 (R36), so `hi` says that the operation is of EndianCodec or FrameChecksum. -/

section
variable {i : Instr} (hi : i.code.extractLsb 5 4 ≠ 0b01#2)
include hi

theorem footprintOf_of_not_addressCodec (w w' : PtrWidth) : footprintOf w i = footprintOf w' i := by
  cases i with
  | encaddr | encaddrp | decaddr => exact absurd (by simp only [Instr.code]; decide) hi
  | _ => rfl

/-- The operation is `perform` on an effect that takes no notice of `W`. -/
theorem exec_eq_perform_of_not_addressCodec :
    ∃ effect : State → State, (∀ s, exec i s = perform i s (effect s)) ∧
      ∀ s w, effect { s with w := w } = { effect s with w := w } := by
  cases i with
  | encaddr | encaddrp | decaddr => exact absurd (by simp only [Instr.code]; decide) hi
  | _ => exact ⟨_, fun _ => rfl, fun _ _ => rfl⟩

end

/-- The search for a conflict takes no notice of `W` while no AddressCodec operation is in flight. -/
theorem State.conflict_withWidth {s : State} (h : ∀ g ∈ s.inFlight, g.instr.code.extractLsb 5 4 ≠ 0b01#2) (w : PtrWidth)
    (f : Footprint) : State.conflict { s with w := w } f = s.conflict f :=
  List.find?_congr fun g hg => by rw [footprintOf_of_not_addressCodec (h g hg) w s.w]

/-- `perform` answers alike on two widths when neither the operation nor any in flight is of AddressCodec. -/
theorem perform_withWidth {i : Instr} (hi : i.code.extractLsb 5 4 ≠ 0b01#2) {s : State}
    (h : ∀ g ∈ s.inFlight, g.instr.code.extractLsb 5 4 ≠ 0b01#2) (w : PtrWidth) (e : State) :
    perform i { s with w := w } { e with w := w } = Claims.withWidth w (perform i s e) := by
  have hf : footprintOf w i = footprintOf s.w i := footprintOf_of_not_addressCodec hi w s.w
  have hn : bytesNeeded w i = bytesNeeded s.w i := congrArg Footprint.len hf
  simp only [perform, hf, hn, State.conflict_withWidth h]
  split
  · split <;> rfl
  · rfl

/-! ## The obligations -/

/-- Settles O42: an operation that completes is one of the two shapes of `exec_shape`, which `W` and the operands fix. -/
theorem operationsSeeOnlyTheirViewAndW : Obligations.OperationsSeeOnlyTheirViewAndW := by
  intro i s s' t t' hwf hwf' hw hview h h'
  obtain ⟨hi, -⟩ := exec_next h
  rcases exec_shape i s.w hi with ⟨-, bytes, r, hlen, hx⟩ | ⟨-, respond, hx⟩
  · rw [hx s rfl, performEncode, perform_eq_next_iff] at h
    rw [hx s' hw.symm, performEncode, perform_eq_next_iff] at h'
    obtain ⟨rfl, -⟩ := h
    obtain ⟨rfl, -⟩ := h'
    exact ⟨rfl, fun k hk => Memory.read_writeBytes_agree hwf hwf' (hlen ▸ hk)⟩
  · rw [hx s rfl, performRead, perform_eq_next_iff] at h
    rw [hx s' hw.symm, performRead, perform_eq_next_iff] at h'
    obtain ⟨rfl, -⟩ := h
    obtain ⟨rfl, -⟩ := h'
    exact ⟨by simp [← hw, Memory.readBytes_congr hview], hview⟩

/-- Settles O43: such an operation is `perform` on an effect blind to `W`; the race check alone can look at `W`. -/
theorem widthMattersToAddressCodecOnly : Obligations.WidthMattersToAddressCodecOnly := by
  intro i s w hi
  obtain ⟨effect, hexec, heffect⟩ := exec_eq_perform_of_not_addressCodec hi
  rw [hexec, hexec, heffect s w]
  refine ⟨fun h => perform_withWidth hi h w _, fun t u ht hu => ?_⟩
  obtain ⟨rfl, -⟩ := perform_eq_next_iff.mp ht
  exact (perform_eq_next_iff.mp hu).1

/-- Settles O48: each of the four ways a step reaches a next state keeps `W`. -/
theorem stepsNeverChangeW : Obligations.StepsNeverChangeW := by
  intro s t h
  rcases step_next h with ⟨-, rfl⟩ | ⟨r, k, rest, i, u, -, -, hu, rfl⟩ | ⟨base, bytes, rest, -, -, rfl⟩ | ⟨rest, -, -, rfl⟩
  · rfl
  · obtain ⟨hw, -⟩ := exec_frame hu
    simpa using hw
  · simp
  · simp

/-- Settles O50: the store is empty at reset. -/
theorem resetStoreIsCanonical : Obligations.ResetStoreIsCanonical := Memory.wf_nil

/-- Settles O51: each field as `State.resetWith` gives it. -/
theorem resetHoldsNothing : Obligations.ResetHoldsNothing :=
  ⟨rfl, rfl, rfl, rfl, rfl, fun _ => rfl⟩

/-- Settles O56: the step is `resetBlock`, which looks at the operations in flight alone. -/
theorem resetHasNoArchitecturalEffect : Obligations.ResetHasNoArchitecturalEffect := by
  intro s rest hm hs
  rw [step_of_script hm hs]
  exact ⟨fun h => resetBlock_of_idle h, fun h => resetBlock_of_busy h⟩

end Sys2Proof.Machine
end

section
/-! SUPPORT. What steps and operations do to the store (spec/20_memory.md): the canonical form, the frame, the byte orders,
operations that do not meet, the caller's own writes, and the single caller. -/

open Sys2Proof.Claims

namespace Sys2Proof.Machine

/-! ## The canonical form of the store -/

theorem exec_keeps_store_wf {i : Instr} {s t : State} (hwf : s.store.wf) (h : exec i s = .next t) : t.store.wf := by
  obtain ⟨-, -, -, ⟨-, bytes, r, -, rfl⟩ | ⟨-, r, rfl⟩⟩ := exec_next h
  · exact Memory.wf_writeBytes hwf _ _
  · exact hwf

/-- Settles O49: of the four ways a step reaches a next state, an operation and a caller's write keep the form as
`exec` and `writeBytes` do; the other two leave the store alone. -/
theorem stepsKeepTheStoreCanonical : Obligations.StepsKeepTheStoreCanonical := by
  intro s t hwf h
  rcases step_next h with ⟨-, rfl⟩ | ⟨r, k, rest, i, u, -, -, hu, rfl⟩ | ⟨base, bytes, rest, -, -, rfl⟩ | ⟨rest, -, -, rfl⟩
  · exact hwf
  · exact exec_keeps_store_wf (s := s.withScript rest) (t := u) hwf hu
  · exact Memory.wf_writeBytes hwf base bytes
  · exact hwf

/-! ## A single caller (R31) -/

theorem State.tick_of_idle {s : State} (h : s.inFlight = []) : s.tick = s := by
  rw [State.tick, h, List.filterMap_nil, ← h]

theorem State.tick_inFlight_of_idle {s : State} (h : s.inFlight = []) : s.tick.inFlight = [] := by
  rw [State.tick_of_idle h, h]

/-- With nothing in flight and no overlap, a request is its operation alone. -/
theorem issue_of_idle {r : Request} {i : Instr} {s : State} (hd : decode r = .ok i) (hs : s.inFlight = []) :
    issue r 0 s = exec i s := by
  simp only [issue, hd]
  cases hx : exec i s with
  | next t =>
    obtain ⟨-, -, hf, -⟩ := exec_frame hx
    exact congrArg Host.Outcome.next (State.tick_of_idle (hf.trans hs))
  | fault f => rfl
  | refused x => rfl

theorem perform_eq_race {i : Instr} {s e : State} {p : Party} {q : Request}
    (h : perform i s e = .refused (.raceRefused p q)) : ∃ g, s.conflict (footprintOf s.w i) = some g := by
  simp only [perform] at h
  split at h
  · split at h
    · cases h
    · exact ⟨_, ‹_›⟩
  · cases h

/-- An operation is refused as a race only over a conflict found among the operations in flight. -/
theorem exec_eq_race {i : Instr} {s : State} {p : Party} {q : Request} (h : exec i s = .refused (.raceRefused p q)) :
    ∃ g, s.conflict (footprintOf s.w i) = some g := by
  cases hi : i.wellFormed s.w with
  | false => rw [exec_of_not_wellFormed hi] at h; cases h
  | true =>
    rcases exec_shape i s.w hi with ⟨-, bytes, r, -, hx⟩ | ⟨-, respond, hx⟩
    · exact perform_eq_race (hx s rfl ▸ h)
    · exact perform_eq_race (hx s rfl ▸ h)

/-- An act is refused as a race only over a conflict found among the operations in flight. -/
theorem act_eq_race {a : CallerAct} {s : State} {p : Party} {q : Request} (h : act a s = .refused (.raceRefused p q)) :
    ∃ f g, s.conflict f = some g := by
  cases a with
  | request r k =>
    simp only [act, issue] at h
    split at h
    · rename_i e _
      cases e <;> cases h
    · split at h <;> cases h
      rename_i hx
      exact ⟨_, exec_eq_race hx⟩
  | store base bytes =>
    simp only [act, callerStore] at h
    split at h
    · cases h
    · exact ⟨_, _, ‹_›⟩
  | reset =>
    simp only [act, resetBlock] at h
    split at h <;> cases h

/-- With nothing in flight no act is refused as a race. -/
theorem act_ne_race_of_idle {s : State} (hs : s.inFlight = []) (a : CallerAct) (p : Party) (q : Request) :
    act a s ≠ .refused (.raceRefused p q) := by
  intro h
  obtain ⟨f, g, hg⟩ := act_eq_race h
  obtain ⟨hmem, -⟩ := State.conflict_eq_some hg
  simp [hs] at hmem

/-- The rest of a single caller's script is one of a single caller. -/
theorem singleCaller_of_rest {s t : State} {a : CallerAct} {rest : List CallerAct} (hs : SingleCaller s)
    (hscript : s.script = a :: rest) (hrest : t.script = rest) (hidle : t.inFlight = []) : SingleCaller t := by
  obtain ⟨-, hacts⟩ := hs
  refine ⟨hidle, fun b hb => hacts b ?_⟩
  rw [hscript, ← hrest]
  exact List.mem_cons_of_mem a hb

theorem singleCaller_step {s t : State} (hs : SingleCaller s) (h : step s = .next t) : SingleCaller t := by
  have ⟨hidle, hacts⟩ := hs
  rcases step_next h with ⟨-, rfl⟩ | ⟨r, k, rest, i, u, hr, -, hu, rfl⟩ | ⟨base, bytes, rest, hr, -, rfl⟩ | ⟨rest, hr, -, rfl⟩
  · exact hs
  · obtain ⟨-, hscript, hflight, -⟩ := exec_frame hu
    obtain rfl : k = 0 := hacts _ (hr ▸ List.mem_cons_self) r k rfl
    exact singleCaller_of_rest hs hr hscript (State.tick_inFlight_of_idle (hflight.trans hidle))
  · exact singleCaller_of_rest hs hr rfl (State.tick_inFlight_of_idle hidle)
  · exact singleCaller_of_rest hs hr rfl hidle

/-- Settles O6: with nothing in flight, counting down and launching change nothing, and no conflict is found. -/
theorem singleCallerStepsAreOperations : Obligations.SingleCallerStepsAreOperations := by
  intro s hm hs
  have ⟨hidle, hacts⟩ := hs
  refine ⟨fun r k rest i hr hd => ?_, fun t => singleCaller_step hs, fun p q h => ?_⟩
  · obtain rfl : k = 0 := hacts _ (hr ▸ List.mem_cons_self) r k rfl
    rw [step_of_script hm hr]
    exact issue_of_idle hd hidle
  · cases hr : s.script with
    | nil => simp [step, advance, hm, hr, idle] at h
    | cons a rest =>
      rw [step_of_script hm hr] at h
      exact act_ne_race_of_idle (s := s.withScript rest) hidle a p q h

/-! ## Byte orders (R22, R23) -/

theorem toNat_byteAt {m : Nat} (v : BitVec m) (k : Nat) : (byteAt v k).toNat = v.toNat / 256 ^ k % 256 := by
  simp [byteAt, Nat.shiftRight_eq_div_pow, Nat.pow_mul]

theorem leValue_append_singleton (bytes : List Byte) (b : Byte) :
    leValue (bytes ++ [b]) = leValue bytes + 256 ^ bytes.length * b.toNat := by
  induction bytes with
  | nil => simp [leValue]
  | cons c bytes ih => simp only [List.cons_append, leValue, ih, List.length_cons]; ring

theorem leValue_lt (bytes : List Byte) : leValue bytes < 256 ^ bytes.length := by
  induction bytes with
  | nil => simp [leValue]
  | cons b bytes ih =>
    have hb : b.toNat < 256 := b.isLt
    simp only [leValue, List.length_cons, Nat.pow_succ]
    omega

/-- Sequences of one length that denote one value are the same sequence. -/
theorem leValue_injective {bytes bytes' : List Byte} (hlen : bytes.length = bytes'.length)
    (h : leValue bytes = leValue bytes') : bytes = bytes' := by
  induction bytes generalizing bytes' with
  | nil => exact (List.length_eq_zero_iff.mp hlen.symm).symm
  | cons b bytes ih =>
    cases bytes' with
    | nil => simp at hlen
    | cons b' bytes' =>
      have hb : b.toNat < 256 := b.isLt
      have hb' : b'.toNat < 256 := b'.isLt
      simp only [leValue] at h
      rw [BitVec.eq_of_toNat_eq (by omega : b.toNat = b'.toNat), ih (by simpa using hlen) (by omega)]

theorem leValue_leBytes {m : Nat} (n : Nat) (v : BitVec m) : leValue (leBytes n v) = v.toNat % 256 ^ n := by
  induction n with
  | zero => simp [leBytes, leValue, Nat.mod_one]
  | succ n ih =>
    have hsnoc : leBytes (n + 1) v = leBytes n v ++ [byteAt v n] := by simp [leBytes, List.range_succ]
    rw [hsnoc, leValue_append_singleton, ih, length_leBytes, toNat_byteAt, Nat.pow_succ, Nat.mod_mul]

theorem ofNat_leValue_leBytes (n : Nat) (v : BitVec (8 * n)) : BitVec.ofNat (8 * n) (leValue (leBytes n v)) = v := by
  apply BitVec.eq_of_toNat_eq
  rw [BitVec.toNat_ofNat, leValue_leBytes, Nat.pow_mul, Nat.mod_mod]
  exact Nat.mod_eq_of_lt (Nat.pow_mul 2 8 n ▸ v.isLt)

theorem leBytes_ofNat_leValue (bytes : List Byte) :
    leBytes bytes.length (BitVec.ofNat (8 * bytes.length) (leValue bytes)) = bytes := by
  apply leValue_injective (length_leBytes _ _)
  rw [leValue_leBytes, BitVec.toNat_ofNat, Nat.pow_mul, Nat.mod_mod]
  exact Nat.mod_eq_of_lt (leValue_lt bytes)

/-- Big-endian is little-endian read from the other end (R22, R23). -/
theorem beValue_eq_leValue_reverse (bytes : List Byte) : beValue bytes = leValue bytes.reverse := by
  induction bytes with
  | nil => rfl
  | cons b bytes ih =>
    rw [List.reverse_cons, leValue_append_singleton, beValue, ih, List.length_reverse]
    ring

theorem beBytes_eq_reverse_leBytes {m : Nat} (n : Nat) (v : BitVec m) : beBytes n v = (leBytes n v).reverse :=
  List.ext_getElem (by simp) fun k _ _ => by simp

/-- Settles O23, for every length: little-endian by the value of the bytes, big-endian by reversal. -/
theorem encodingIsABijection : Obligations.EncodingIsABijection := by
  intro n _
  refine ⟨fun v => ⟨?_, ofNat_leValue_leBytes n v⟩, ?_⟩
  · rw [beBytes_eq_reverse_leBytes, beValue_eq_leValue_reverse, List.reverse_reverse, ofNat_leValue_leBytes]
  · rintro bytes rfl
    refine ⟨?_, leBytes_ofNat_leValue bytes⟩
    have h := leBytes_ofNat_leValue bytes.reverse
    rw [List.length_reverse] at h
    rw [beBytes_eq_reverse_leBytes, beValue_eq_leValue_reverse, h, List.reverse_reverse]

/-! ## Frames (R27, R28) -/

/-- Settles O41: an operation that completes has one of the two shapes of `exec_shape`, which `W` and the operands fix. -/
theorem everyOperationKeepsItsFrame : Obligations.EveryOperationKeepsItsFrame := by
  intro i s t hwf h
  obtain ⟨hi, -⟩ := exec_next h
  rcases exec_shape i s.w hi with ⟨ha, bytes, r, hlen, hx⟩ | ⟨ha, respond, hx⟩
  · rw [hx s rfl, performEncode, perform_eq_next_iff] at h
    obtain ⟨rfl, -⟩ := h
    refine ⟨rfl, rfl, rfl, rfl, ⟨r, rfl⟩, fun hread => by simp [ha] at hread,
      fun a hout => Memory.read_writeBytes_outside hwf (hlen ▸ hout), fun s' t' hwf' hw' h' _ k hk => ?_⟩
    rw [hx s' hw', performEncode, perform_eq_next_iff] at h'
    obtain ⟨rfl, -⟩ := h'
    exact Memory.read_writeBytes_agree hwf hwf' (hlen ▸ hk)
  · rw [hx s rfl, performRead, perform_eq_next_iff] at h
    obtain ⟨rfl, -⟩ := h
    exact ⟨rfl, rfl, rfl, rfl, ⟨_, rfl⟩, fun _ => rfl, fun _ _ => rfl, fun _ _ _ _ _ hwrite => by simp [ha] at hwrite⟩

/-- Settles O40, row by row of R27's table. -/
theorem accessWidthsAreTheTables : Obligations.AccessWidthsAreTheTables := by
  intro w v16 v32 seed v64 buf n
  exact ⟨rfl, rfl, rfl, rfl, rfl, rfl, rfl, rfl, rfl, rfl, rfl, rfl, rfl, rfl, rfl, rfl⟩

/-! ## Operations that do not conflict (R32) -/

theorem exec_completes_of_admits {i : Instr} {s : State} (h : s.admits i) : ∃ t, exec i s = .next t := by
  obtain ⟨hi, hcap, hclear⟩ := h
  rcases exec_shape i s.w hi with ⟨-, bytes, r, -, hx⟩ | ⟨-, respond, hx⟩
  · exact ⟨_, (hx s rfl).trans (perform_next hcap hclear)⟩
  · exact ⟨_, (hx s rfl).trans (perform_next hcap hclear)⟩

/-- A completed operation leaves the state as ready for another as it was. -/
theorem admits_of_exec {i j : Instr} {s t : State} (h : exec i s = .next t) (hj : s.admits j) : t.admits j := by
  obtain ⟨hw, -, hflight, -⟩ := exec_frame h
  simpa only [State.admits, State.clearFor, hw, hflight] using hj

theorem exec_responses {i : Instr} {s t : State} (hwf : s.store.wf) (h : exec i s = .next t) :
    ∃ r, t.responses = r :: s.responses := by
  obtain ⟨-, -, -, -, hr, -⟩ := everyOperationKeepsItsFrame i s t hwf h
  exact hr

/-- An operation leaves every byte that is not its own as it was. -/
theorem exec_read_outside {i : Instr} {s t : State} (hwf : s.store.wf) (h : exec i s = .next t) {a : Nat}
    (ha : a < i.view.base ∨ i.view.base + bytesNeeded s.w i ≤ a) : t.store.read a = s.store.read a := by
  obtain ⟨-, -, -, -, -, -, hout, -⟩ := everyOperationKeepsItsFrame i s t hwf h
  exact hout a ha

/-- An operation leaves the bytes of another that it does not conflict with as they were. -/
theorem exec_read_of_not_clash {i j : Instr} {s t : State} (hwf : s.store.wf) (h : exec i s = .next t)
    (hn : ¬ (footprintOf s.w i).clash (footprintOf s.w j)) {k : Nat} (hk : k < bytesNeeded s.w j) :
    t.store.read (j.view.base + k) = s.store.read (j.view.base + k) := by
  cases hacc : accessOf i with
  | read =>
    obtain ⟨-, -, -, -, -, hread, -⟩ := everyOperationKeepsItsFrame i s t hwf h
    rw [hread hacc]
  | write =>
    refine exec_read_outside hwf h ?_
    by_contra hin
    exact hn ⟨.inl hacc, j.view.base + k, by simp only [footprintOf]; omega, by simp only [footprintOf]; omega⟩

/-- An operation gives the same result, and leaves the same bytes in its view, before and after one it does not conflict with. -/
theorem exec_after_not_clash {i j : Instr} {s t u t' : State} (hwf : s.store.wf) (hi : exec i s = .next t)
    (hij : exec j t = .next u) (hj : exec j s = .next t') (hn : ¬ (footprintOf s.w i).clash (footprintOf s.w j)) :
    (∃ r, u.responses = r :: t.responses ∧ t'.responses = r :: s.responses) ∧
      ∀ k < bytesNeeded s.w j, u.store.read (j.view.base + k) = t'.store.read (j.view.base + k) := by
  have htwf := exec_keeps_store_wf hwf hi
  obtain ⟨hw, -⟩ := exec_frame hi
  obtain ⟨hhead, hbytes⟩ := operationsSeeOnlyTheirViewAndW j t s u t' htwf hwf hw
    (fun k hk => exec_read_of_not_clash hwf hi hn (hw ▸ hk)) hij hj
  obtain ⟨r, hr⟩ := exec_responses htwf hij
  obtain ⟨r', hr'⟩ := exec_responses hwf hj
  obtain rfl : r = r' := by simpa [hr, hr'] using hhead
  exact ⟨⟨r, hr, hr'⟩, hw ▸ hbytes⟩

/-- A byte of the second operation's view ends the same in both orders. -/
theorem read_commute_of_not_clash {i j : Instr} {s t u t' u' : State} (hwf : s.store.wf) (hi : exec i s = .next t)
    (hij : exec j t = .next u) (hj : exec j s = .next t') (hji : exec i t' = .next u')
    (hn : ¬ (footprintOf s.w i).clash (footprintOf s.w j)) {k : Nat} (hk : k < bytesNeeded s.w j) :
    u.store.read (j.view.base + k) = u'.store.read (j.view.base + k) := by
  obtain ⟨-, hbytes⟩ := exec_after_not_clash hwf hi hij hj hn
  obtain ⟨hw, -⟩ := exec_frame hj
  rw [hbytes k hk, exec_read_of_not_clash (exec_keeps_store_wf hwf hj) hji (hw ▸ hn) (hw ▸ hk)]

/-- A byte outside both views is in neither order touched. -/
theorem read_outside_both {i j : Instr} {s t u : State} (hwf : s.store.wf) (hi : exec i s = .next t)
    (hij : exec j t = .next u) {a : Nat} (hai : a < i.view.base ∨ i.view.base + bytesNeeded s.w i ≤ a)
    (haj : a < j.view.base ∨ j.view.base + bytesNeeded s.w j ≤ a) : u.store.read a = s.store.read a := by
  obtain ⟨hw, -⟩ := exec_frame hi
  rw [exec_read_outside (exec_keeps_store_wf hwf hi) hij (hw ▸ haj), exec_read_outside hwf hi hai]

/-- An address is at an offset of a run of `n` bytes or outside it. -/
theorem offset_or_outside (a base n : Nat) : (∃ k < n, a = base + k) ∨ a < base ∨ base + n ≤ a := by
  by_cases h : base ≤ a ∧ a < base + n
  · exact .inl ⟨a - base, by omega, by omega⟩
  · exact .inr (by omega)

/-- Non-conflicting operations leave the same store in both orders. -/
theorem store_commute_of_not_clash {i j : Instr} {s t u t' u' : State} (hwf : s.store.wf) (hi : exec i s = .next t)
    (hij : exec j t = .next u) (hj : exec j s = .next t') (hji : exec i t' = .next u')
    (hn : ¬ (footprintOf s.w i).clash (footprintOf s.w j)) (hn' : ¬ (footprintOf s.w j).clash (footprintOf s.w i)) :
    u.store = u'.store := by
  have huwf := exec_keeps_store_wf (exec_keeps_store_wf hwf hi) hij
  have huwf' := exec_keeps_store_wf (exec_keeps_store_wf hwf hj) hji
  refine Memory.ext_of_read huwf huwf' fun a => ?_
  rcases offset_or_outside a j.view.base (bytesNeeded s.w j) with ⟨k, hk, rfl⟩ | haj
  · exact read_commute_of_not_clash hwf hi hij hj hji hn hk
  rcases offset_or_outside a i.view.base (bytesNeeded s.w i) with ⟨k, hk, rfl⟩ | hai
  · exact (read_commute_of_not_clash hwf hj hji hi hij hn' hk).symm
  · rw [read_outside_both hwf hi hij hai haj, read_outside_both hwf hj hji haj hai]

theorem Footprint.clash_comm (f g : Footprint) : f.clash g ↔ g.clash f := by
  simp only [Footprint.clash, or_comm, and_comm]

/-- Settles O47: neither operation touches what the other sees, and stores are equal that read alike. -/
theorem nonConflictingOperationsCommute : Obligations.NonConflictingOperationsCommute := by
  intro i j s hwf hi hj hn
  have hn' : ¬ (footprintOf s.w j).clash (footprintOf s.w i) := mt (Footprint.clash_comm _ _).mp hn
  obtain ⟨t, ht⟩ := exec_completes_of_admits hi
  obtain ⟨t', ht'⟩ := exec_completes_of_admits hj
  obtain ⟨u, hu⟩ := exec_completes_of_admits (admits_of_exec ht hj)
  obtain ⟨u', hu'⟩ := exec_completes_of_admits (admits_of_exec ht' hi)
  obtain ⟨⟨rj, hrj, hrj'⟩, -⟩ := exec_after_not_clash hwf ht hu ht' hn
  obtain ⟨⟨ri, hri', hri⟩, -⟩ := exec_after_not_clash hwf ht' hu' ht hn'
  exact ⟨ri, rj, t, u, t', u', ht, hu, ht', hu', store_commute_of_not_clash hwf ht hu ht' hu' hn hn',
    by rw [hrj, hri], by rw [hri', hrj']⟩

/-! ## The caller's own writes (R20, R115, R118) -/

theorem callerStore_of_clear {s : State} {base : Nat} {bytes : List Byte} (h : s.clearFor .write base bytes.length) :
    callerStore base bytes s = .next (s.put base bytes).tick := by
  simp only [callerStore, (s.conflict_eq_none_iff _).mpr h]

theorem callerStore_of_not_clear {s : State} {base : Nat} {bytes : List Byte}
    (h : ¬ s.clearFor .write base bytes.length) : ∃ g ∈ s.inFlight,
      (footprintOf s.w g.instr).clash { access := .write, base := base, len := bytes.length } ∧
      callerStore base bytes s = .refused (.raceRefused (.callerStore base bytes) (encode g.instr)) := by
  cases hc : s.conflict { access := .write, base := base, len := bytes.length } with
  | none => exact absurd ((s.conflict_eq_none_iff _).mp hc) h
  | some g =>
    obtain ⟨hg, hclash⟩ := State.conflict_eq_some hc
    exact ⟨g, hg, hclash, by simp only [callerStore, hc]⟩

/-- Settles O57: the step is `callerStore`, which writes when the search finds no conflict and else records the one found. -/
theorem callerWritesItsOwnBuffers : Obligations.CallerWritesItsOwnBuffers := by
  intro s base bytes rest hm hwf hs
  rw [step_of_script hm hs]
  refine ⟨fun h => ?_, fun h => callerStore_of_not_clear (s := s.withScript rest) h⟩
  exact ⟨_, callerStore_of_clear (s := s.withScript rest) h, Memory.wf_writeBytes hwf base bytes,
    fun k hk => Memory.read_writeBytes_inside hwf hk, fun a ha => Memory.read_writeBytes_outside hwf ha,
    rfl, rfl, rfl, hm⟩

end Sys2Proof.Machine
end

section
/-! SUPPORT. Requests and their operations (spec/30_encoding.md): the decoder against the encoder, both ways, the reserved codes, and the
step that handles a request. -/

open Sys2Proof.Claims

namespace Sys2Proof

/-! ## The three forms of a request (R36) -/

section
variable {n : Nat} {r : Request} {mk : BitVec n → Instr} {i j : Instr}

theorem valueForm_eq_ok_iff : valueForm n r mk = .ok i ↔
    (r.value.toNat < 2 ^ n ∧ r.length = 0 ∧ r.startValue = 0) ∧ mk (r.value.setWidth n) = i := by
  rw [valueForm, ite_eq_iff]
  simp

theorem viewForm_eq_ok_iff :
    viewForm r i = .ok j ↔ (r.value = 0 ∧ r.length = 0 ∧ r.startValue = 0) ∧ i = j := by
  rw [viewForm, ite_eq_iff]
  simp

theorem checksumForm_eq_ok_iff : checksumForm r i = .ok j ↔ r.value = 0 ∧ i = j := by
  rw [checksumForm, ite_eq_iff]
  simp

theorem valueForm_ne_illegalOp (op : BitVec 6) : valueForm n r mk ≠ .error (.illegalOp op) := by
  rw [valueForm, Ne, ite_eq_iff]
  simp

theorem viewForm_ne_illegalOp (op : BitVec 6) : viewForm r i ≠ .error (.illegalOp op) := by
  rw [viewForm, Ne, ite_eq_iff]
  simp

theorem checksumForm_ne_illegalOp (op : BitVec 6) : checksumForm r i ≠ .error (.illegalOp op) := by
  rw [checksumForm, Ne, ite_eq_iff]
  simp

/-- An operand zero extended to its port is read back whole. -/
theorem valueForm_of_value_eq_setWidth {v : BitVec n} (hn : n ≤ 64) (hv : r.value = v.setWidth 64) (hl : r.length = 0)
    (hs : r.startValue = 0) : valueForm n r mk = .ok (mk v) := by
  refine valueForm_eq_ok_iff.mpr ⟨⟨?_, hl, hs⟩, ?_⟩
  · rw [hv, BitVec.toNat_setWidth_of_le hn]
    exact v.isLt
  · rw [hv, BitVec.setWidth_setWidth_of_le v hn, BitVec.setWidth_eq]

/-! ## The requests a form accepts are encodings -/

theorem encode_of_valueForm (h : valueForm n r mk = .ok i) (hn : n ≤ 64) (hop : r.op.toNat = (mk 0).code.toNat)
    (hmk : ∀ v, encode (mk v) = { op := (mk 0).code, value := v.setWidth 64, buf := r.buf, length := 0, startValue := 0 }) :
    encode i = r := by
  obtain ⟨⟨hv, hl, hs⟩, rfl⟩ := valueForm_eq_ok_iff.mp h
  have hwhole : (r.value.setWidth n).setWidth 64 = r.value :=
    BitVec.eq_of_toNat_eq (by rw [BitVec.toNat_setWidth_of_le hn, BitVec.toNat_setWidth, Nat.mod_eq_of_lt hv])
  rw [hmk, hwhole, ← BitVec.eq_of_toNat_eq hop, ← hl, ← hs]

theorem encode_of_viewForm (h : viewForm r j = .ok i) (hop : r.op.toNat = j.code.toNat)
    (hj : encode j = { op := j.code, value := 0, buf := r.buf, length := 0, startValue := 0 }) : encode i = r := by
  obtain ⟨⟨hv, hl, hs⟩, rfl⟩ := viewForm_eq_ok_iff.mp h
  rw [hj, ← BitVec.eq_of_toNat_eq hop, ← hv, ← hl, ← hs]

theorem encode_of_checksumForm (h : checksumForm r (.crc32 r.buf r.length r.startValue) = .ok i)
    (hop : r.op.toNat = OpCode.crc32.toNat) : encode i = r := by
  obtain ⟨hv, rfl⟩ := checksumForm_eq_ok_iff.mp h
  have hcode : r.op = OpCode.crc32 := BitVec.eq_of_toNat_eq hop
  simp only [encode, Instr.code, Instr.valuePort, Instr.view, Instr.lengthPort, Instr.seedPort, ← hcode, ← hv]

end

/-! ## The decoder against the encoder -/

/-- Settles O3: an operation's code selects its own form, and its request has the operand zero extended and zeros on the ports it does not
use. -/
theorem decodeOfEncodeIsTheOperation : Obligations.DecodeOfEncodeIsTheOperation := by
  intro i
  unfold decode
  cases i with
  | enc16be v buf | enc32be v buf | enc16le v buf | enc32le v buf =>
    exact valueForm_of_value_eq_setWidth (v := v) (by decide) rfl rfl rfl
  | enc64be v buf | enc64le v buf | encaddr v buf | encaddrp v buf =>
    exact valueForm_of_value_eq_setWidth (v := v) (by decide) (BitVec.setWidth_eq v).symm rfl rfl
  | dec16be buf | dec32be buf | dec64be buf | dec16le buf | dec32le buf | dec64le buf | decaddr buf =>
    exact viewForm_eq_ok_iff.mpr ⟨⟨rfl, rfl, rfl⟩, rfl⟩
  | crc32 buf length seed => exact checksumForm_eq_ok_iff.mpr ⟨rfl, rfl⟩

/-- Settles O4: the code selects the form, and what a form accepts is the encoding of what it gives. -/
theorem acceptedRequestsAreEncodings : Obligations.AcceptedRequestsAreEncodings := by
  intro r i h
  simp only [decode] at h
  split at h
  case h_1 hop | h_2 hop | h_4 hop | h_5 hop => exact encode_of_valueForm h (by decide) hop fun _ => rfl
  case h_3 hop | h_6 hop | h_13 hop | h_14 hop =>
    exact encode_of_valueForm h (by decide) hop fun v => by rw [BitVec.setWidth_eq]; rfl
  case h_7 hop | h_8 hop | h_9 hop | h_10 hop | h_11 hop | h_12 hop | h_15 hop => exact encode_of_viewForm h hop rfl
  case h_16 hop => exact encode_of_checksumForm h hop
  case h_17 => cases h

/-- A word of the table whose request is that of an operation decodes to the operation. -/
theorem decodeTableWord_of_encode {nbits w : Nat} {i : Instr} (hw : w % 2 ^ nbits < 64) (h : tableRequest nbits w = encode i) :
    decodeTableWord nbits w = some i := by
  rw [decodeTableWord, if_pos hw, h, decodeOfEncodeIsTheOperation i]
  rfl

/-- Settles O1: the request of each word is the request of its operation. -/
theorem tableCodesDecodeToTheirOperations : Obligations.TableCodesDecodeToTheirOperations := by
  refine ⟨?_, ?_, ?_, ?_, ?_, ?_, ?_, ?_, ?_, ?_, ?_, ?_, ?_, ?_, ?_, ?_⟩ <;>
    exact decodeTableWord_of_encode (by decide) rfl

/-! ## The reserved codes (R42) -/

/-- The decoder finds no operation exactly under the codes of R42, whatever the operands. -/
theorem decode_eq_illegalOp_iff {r : Request} : decode r = .error (.illegalOp r.op) ↔ ReservedCode r.op.toNat := by
  have hlt := r.op.isLt
  simp only [decode]
  split
  case h_1 hop | h_2 hop | h_3 hop | h_4 hop | h_5 hop | h_6 hop | h_13 hop | h_14 hop =>
    exact iff_of_false (valueForm_ne_illegalOp _) (by simp [ReservedCode, hop])
  case h_7 hop | h_8 hop | h_9 hop | h_10 hop | h_11 hop | h_12 hop | h_15 hop =>
    exact iff_of_false (viewForm_ne_illegalOp _) (by simp [ReservedCode, hop])
  case h_16 hop => exact iff_of_false (checksumForm_ne_illegalOp _) (by simp [ReservedCode, hop])
  case h_17 =>
    refine iff_of_true rfl ?_
    simp only [imp_false, ReservedCode] at *
    omega

end Sys2Proof

namespace Sys2Proof.Machine

/-! ## The step that handles a request (R49) -/

/-- Settles O5: the step is `issue` of the request, which is `exec` of what the decoder reads. -/
theorem stepRunsTheDecodedOperation : Obligations.StepRunsTheDecodedOperation := by
  intro s r k rest i hm hs hd
  rw [step_of_script hm hs]
  cases hx : exec i (s.withScript rest) <;> simp only [act, issue, hd, hx]

/-- The step that handles a request the decoder rejects. -/
theorem step_of_decode_error {s : State} {r : Request} {k : Nat} {rest : List CallerAct} {e : Reject} (hm : s.mark = none)
    (hs : s.script = .request r k :: rest) (hd : decode r = .error e) : step s = rejected e := by
  rw [step_of_script hm hs]
  simp only [act, issue, hd]

theorem perform_ne_illegalOp (i : Instr) (s e : State) (op : BitVec 6) : perform i s e ≠ .fault (.illegalOp op) := by
  simp only [perform]
  split
  · split <;> simp
  · simp

/-- An operation never faults `IllegalOp`: the fault is of requests that select none. -/
theorem exec_ne_illegalOp (i : Instr) (s : State) (op : BitVec 6) : exec i s ≠ .fault (.illegalOp op) := by
  cases hi : i.wellFormed s.w with
  | false => simp [exec_of_not_wellFormed hi]
  | true =>
    rcases exec_shape i s.w hi with ⟨-, bytes, r, -, hx⟩ | ⟨-, respond, hx⟩
    · exact hx s rfl ▸ perform_ne_illegalOp i s _ op
    · exact hx s rfl ▸ perform_ne_illegalOp i s _ op

theorem rejected_eq_illegalOp_iff {e : Reject} {op : BitVec 6} : rejected e = .fault (.illegalOp op) ↔ e = .illegalOp op := by
  cases e <;> simp [rejected]

/-- The step faults `IllegalOp` exactly when the decoder does: no operation that is performed does. -/
theorem step_eq_illegalOp_iff {s : State} {r : Request} {k : Nat} {rest : List CallerAct} {op : BitVec 6} (hm : s.mark = none)
    (hs : s.script = .request r k :: rest) : step s = .fault (.illegalOp op) ↔ decode r = .error (.illegalOp op) := by
  cases hd : decode r with
  | error e => rw [step_of_decode_error hm hs hd, rejected_eq_illegalOp_iff, Except.error.injEq]
  | ok i =>
    refine iff_of_false (fun h => ?_) (by simp)
    rw [stepRunsTheDecodedOperation s r k rest i hm hs hd] at h
    split at h <;> cases h
    exact exec_ne_illegalOp i _ op ‹_›

/-- Settles O2: the fault is the decoder's verdict on the code alone, and it leaves the state before with the mark set. -/
theorem reservedCodesFaultWhateverTheView : Obligations.ReservedCodesFaultWhateverTheView := by
  intro s r k rest hm hs
  have hstep : step s = .fault (.illegalOp r.op) ↔ ReservedCode r.op.toNat :=
    (step_eq_illegalOp_iff hm hs).trans decode_eq_illegalOp_iff
  refine ⟨hstep, fun h => ?_⟩
  rw [hstep.mpr h, State.after_fault, State.stopped, hm]
  rfl

end Sys2Proof.Machine
end

section
/-! SUPPORT. EndianCodec (spec/40_endian_codec.md): what an encode and a decode do, said of the bytes; the two byte orders; the round
trips. -/

open Sys2Proof.Claims

namespace Sys2Proof.Machine

/-! ## Encode rules and decode rules -/

/-- On a block of width `w` the operation `mk` of code `op` is an encode of `bytes` that answers `r`. For an operation of
EndianCodec each field is its row of the model's tables, true by unfolding. -/
structure EncodesAs (w : PtrWidth) (mk : View → Instr) (op : BitVec 6) (bytes : List Byte) (r : Response) : Prop where
  code : ∀ buf, (mk buf).code = op := by intros; rfl
  view : ∀ buf, (mk buf).view = buf := by intros; rfl
  access : ∀ buf, accessOf (mk buf) = .write := by intros; rfl
  needed : ∀ buf, bytesNeeded w (mk buf) = bytes.length := by intros; rfl
  exec_eq : ∀ buf s, s.w = w → exec (mk buf) s = performEncode (mk buf) bytes r s := by intros; rfl

/-- On a block of width `w` the operation `mk` of code `op` answers `respond` of the `n` bytes of its view. For an
operation of EndianCodec each field is its row of the model's tables, true by unfolding. -/
structure DecodesAs (w : PtrWidth) (mk : View → Instr) (op : BitVec 6) (n : Nat) (respond : List Byte → Response) : Prop where
  code : ∀ buf, (mk buf).code = op := by intros; rfl
  view : ∀ buf, (mk buf).view = buf := by intros; rfl
  access : ∀ buf, accessOf (mk buf) = .read := by intros; rfl
  needed : ∀ buf, bytesNeeded w (mk buf) = n := by intros; rfl
  exec_eq : ∀ buf s, s.w = w → exec (mk buf) s = performRead (mk buf) respond s := by intros; rfl

section
variable {w : PtrWidth} {mk : View → Instr} {op : BitVec 6} {bytes : List Byte} {n : Nat} {r : Response}
  {respond : List Byte → Response} {buf : View} {s : State}

theorem EncodesAs.exec_next (h : EncodesAs w mk op bytes r) (hw : s.w = w) (hcap : bytes.length ≤ buf.cap)
    (hclear : s.clearFor .write buf.base bytes.length) : exec (mk buf) s = .next ((s.put buf.base bytes).deliver r) := by
  subst hw
  rw [h.exec_eq buf s rfl, performEncode, perform_next, h.view]
  · rwa [h.needed, h.view]
  · rwa [h.access, h.needed, h.view]

theorem EncodesAs.exec_fault (h : EncodesAs w mk op bytes r) (hw : s.w = w) (hcap : buf.cap < bytes.length) :
    exec (mk buf) s = .fault (.capacityViolation op bytes.length buf.cap) := by
  subst hw
  rw [h.exec_eq buf s rfl, performEncode, perform_fault, h.code, h.needed, h.view]
  rwa [h.needed, h.view]

theorem DecodesAs.exec_next (h : DecodesAs w mk op n respond) (hw : s.w = w) (hcap : n ≤ buf.cap)
    (hclear : s.clearFor .read buf.base n) :
    exec (mk buf) s = .next (s.deliver (respond (s.store.readBytes buf.base n))) := by
  subst hw
  rw [h.exec_eq buf s rfl, performRead, perform_next, h.view, h.needed]
  · rwa [h.needed, h.view]
  · rwa [h.access, h.needed, h.view]

theorem DecodesAs.exec_fault (h : DecodesAs w mk op n respond) (hw : s.w = w) (hcap : buf.cap < n) :
    exec (mk buf) s = .fault (.capacityViolation op n buf.cap) := by
  subst hw
  rw [h.exec_eq buf s rfl, performRead, perform_fault, h.code, h.needed, h.view]
  rwa [h.needed, h.view]

/-- The encode rule of the statements: request, fault, bytes written and frame. -/
theorem EncodesAs.encodes (h : EncodesAs w mk op bytes r) : Encodes w mk op bytes r := by
  intro buf s hw hwf
  refine ⟨h.code buf, decodeOfEncodeIsTheOperation _, h.exec_fault hw, fun hcap hclear => ?_⟩
  exact ⟨s.store.writeBytes buf.base bytes, h.exec_next hw hcap hclear, Memory.wf_writeBytes hwf _ _,
    fun k hk => Memory.read_writeBytes_inside hwf hk, fun a ha => Memory.read_writeBytes_outside hwf ha⟩

/-- The decode rule of the statements, for the response said of the bytes at the offsets of the view. -/
theorem DecodesAs.reads (h : DecodesAs w mk op n respond) {f : (Nat → Byte) → Response}
    (hf : ∀ b, respond ((List.range n).map b) = f b) : Reads w mk op n f := by
  intro buf s hw
  refine ⟨h.code buf, decodeOfEncodeIsTheOperation _, h.exec_fault hw, fun hcap hclear => ?_⟩
  rw [h.exec_next hw hcap hclear, Memory.readBytes, hf]
  rfl

/-- Nothing conflicts with a read of bytes that could be written. -/
theorem State.clearFor_read_of_write {base : Nat} (h : s.clearFor .write base n) : s.clearFor .read base n :=
  fun g hg ⟨_, hcommon⟩ => h g hg ⟨.inr rfl, hcommon⟩

end

/-! ## The two byte orders (R22, R23) -/

/-- The value of `m` bits that a byte sequence denotes, most-significant byte first. -/
def beWord (m : Nat) (bytes : List Byte) : BitVec m := BitVec.ofNat m (beValue bytes)

/-- The value of `m` bits that a byte sequence denotes, least-significant byte first. -/
def leWord (m : Nat) (bytes : List Byte) : BitVec m := BitVec.ofNat m (leValue bytes)

theorem leWord_eq_beWord_reverse (m : Nat) (bytes : List Byte) : leWord m bytes = beWord m bytes.reverse := by
  rw [leWord, beWord, beValue_eq_leValue_reverse, List.reverse_reverse]

theorem beWord_of_toNat_eq {m : Nat} {x : BitVec m} {bytes : List Byte} (h : x.toNat = beValue bytes) : beWord m bytes = x := by
  rw [beWord, ← h, BitVec.ofNat_toNat, BitVec.setWidth_eq]

theorem toNat_append_byte {m : Nat} (x : BitVec m) (b : Byte) : (x ++ b).toNat = x.toNat * 256 + b.toNat := by
  rw [BitVec.toNat_append, ← Nat.shiftLeft_add_eq_or_of_lt b.isLt, Nat.shiftLeft_eq]

theorem beWord_two (a b : Byte) : beWord 16 [a, b] = a ++ b := by
  refine beWord_of_toNat_eq ?_
  simp [toNat_append_byte, beValue]

theorem beWord_four (a b c d : Byte) : beWord 32 [a, b, c, d] = a ++ b ++ c ++ d := by
  refine beWord_of_toNat_eq ?_
  simp only [toNat_append_byte, beValue, List.length]
  omega

theorem beWord_eight (a b c d e f g h : Byte) :
    beWord 64 [a, b, c, d, e, f, g, h] = a ++ b ++ c ++ d ++ e ++ f ++ g ++ h := by
  refine beWord_of_toNat_eq ?_
  simp only [toNat_append_byte, beValue, List.length]
  omega

/-- `cut` and `join` are one byte order for `n` bytes: inverse to each other, and blind to the order of bytes that are all the same. -/
structure ByteOrder {m : Nat} (n : Nat) (cut : BitVec m → List Byte) (join : List Byte → BitVec m) : Prop where
  length_cut : ∀ v, (cut v).length = n
  join_cut : ∀ v, join (cut v) = v
  cut_join : ∀ bytes, bytes.length = n → cut (join bytes) = bytes
  cut_constant : ∀ v b, (∀ k < n, byteAt v k = b) → cut v = List.replicate n b

theorem leBytes_constant {m n : Nat} {v : BitVec m} {b : Byte} (h : ∀ k < n, byteAt v k = b) :
    leBytes n v = List.replicate n b :=
  List.ext_getElem (by simp) fun k hk _ => by simpa using h k (by simpa using hk)

theorem byteOrder_le {n : Nat} (hn : n = 2 ∨ n = 4 ∨ n = 8) : ByteOrder n (leBytes n) (leWord (8 * n)) where
  length_cut := length_leBytes n
  join_cut v := ((encodingIsABijection n hn).1 v).2
  cut_join bytes hlen := ((encodingIsABijection n hn).2 bytes hlen).2
  cut_constant _ _ := leBytes_constant

theorem byteOrder_be {n : Nat} (hn : n = 2 ∨ n = 4 ∨ n = 8) : ByteOrder n (beBytes n) (beWord (8 * n)) where
  length_cut := length_beBytes n
  join_cut v := ((encodingIsABijection n hn).1 v).1
  cut_join bytes hlen := ((encodingIsABijection n hn).2 bytes hlen).1
  cut_constant v b h := by rw [beBytes_eq_reverse_leBytes, leBytes_constant h, List.reverse_replicate]

theorem byteAt_zero (m k : Nat) : byteAt (0 : BitVec m) k = 0x00 := BitVec.extractLsb'_zero

theorem byteAt_allOnes {n k : Nat} (hk : k < n) : byteAt (BitVec.allOnes (8 * n)) k = 0xFF := by
  rw [show (0xFF : Byte) = BitVec.allOnes 8 from rfl]
  apply BitVec.eq_of_getLsbD_eq
  intro i hi
  have hbit : 8 * k + i < 8 * n := by omega
  rw [byteAt, BitVec.getLsbD_extractLsb', BitVec.getLsbD_allOnes, BitVec.getLsbD_allOnes]
  simp [hi, hbit]

/-- Reversing the bytes is cutting in one order and joining in the other (R65, R67). -/
theorem reverses_iff {m n : Nat} {v x : BitVec m} : Reverses n v x ↔ leBytes n x = beBytes n v := by
  constructor
  · intro h
    refine List.ext_getElem (by simp) fun k hk _ => ?_
    rw [getElem_leBytes, getElem_beBytes]
    exact h k (by simpa using hk)
  · intro h k hk
    have hbyte := List.getElem_of_eq h (by simpa using hk : k < (leBytes n x).length)
    rwa [getElem_leBytes, getElem_beBytes] at hbyte

theorem reverses_symm {m n : Nat} {v x : BitVec m} (h : Reverses n v x) : Reverses n x v := by
  rw [reverses_iff, beBytes_eq_reverse_leBytes] at *
  rw [h, List.reverse_reverse]

/-! ## An encode and a decode of one width and one order -/

/-- `enc` and `dec` are the encode and the decode of one byte order for `n` bytes, whatever `W` is; `r` is the response of a decode. -/
structure Codec {m : Nat} (n : Nat) (enc : BitVec m → View → Instr) (dec : View → Instr) (op op' : BitVec 6)
    (cut : BitVec m → List Byte) (join : List Byte → BitVec m) (r : BitVec m → Response) : Prop where
  order : ByteOrder n cut join
  encodesAs : ∀ w v, EncodesAs w (enc v) op (cut v) .done
  decodesAs : ∀ w, DecodesAs w dec op' n fun bytes => r (join bytes)

theorem codec16be : Codec 2 .enc16be .dec16be OpCode.enc16be OpCode.dec16be (beBytes 2) (beWord 16) .value16 where
  order := byteOrder_be (by decide)
  encodesAs _ _ := {}
  decodesAs _ := {}

theorem codec32be : Codec 4 .enc32be .dec32be OpCode.enc32be OpCode.dec32be (beBytes 4) (beWord 32) .value32 where
  order := byteOrder_be (by decide)
  encodesAs _ _ := {}
  decodesAs _ := {}

theorem codec64be : Codec 8 .enc64be .dec64be OpCode.enc64be OpCode.dec64be (beBytes 8) (beWord 64) .value64 where
  order := byteOrder_be (by decide)
  encodesAs _ _ := {}
  decodesAs _ := {}

theorem codec16le : Codec 2 .enc16le .dec16le OpCode.enc16le OpCode.dec16le (leBytes 2) (leWord 16) .value16 where
  order := byteOrder_le (by decide)
  encodesAs _ _ := {}
  decodesAs _ := {}

theorem codec32le : Codec 4 .enc32le .dec32le OpCode.enc32le OpCode.dec32le (leBytes 4) (leWord 32) .value32 where
  order := byteOrder_le (by decide)
  encodesAs _ _ := {}
  decodesAs _ := {}

theorem codec64le : Codec 8 .enc64le .dec64le OpCode.enc64le OpCode.dec64le (leBytes 8) (leWord 64) .value64 where
  order := byteOrder_le (by decide)
  encodesAs _ _ := {}
  decodesAs _ := {}

section
variable {m n : Nat} {enc enc' be le : BitVec m → View → Instr} {dec dec' : View → Instr} {op op' op₁ op₁' : BitVec 6}
  {cut cut' : BitVec m → List Byte} {join join' : List Byte → BitVec m} {r r' : BitVec m → Response} {buf : View} {s : State}

theorem Codec.exec_encode (c : Codec n enc dec op op' cut join r) (v : BitVec m) (hcap : n ≤ buf.cap)
    (hclear : s.clearFor .write buf.base n) : exec (enc v buf) s = .next ((s.put buf.base (cut v)).deliver .done) := by
  rw [← c.order.length_cut v] at hcap hclear
  exact (c.encodesAs s.w v).exec_next rfl hcap hclear

theorem Codec.exec_decode (c : Codec n enc dec op op' cut join r) (hcap : n ≤ buf.cap) (hclear : s.clearFor .read buf.base n) :
    exec (dec buf) s = .next (s.deliver (r (join (s.store.readBytes buf.base n)))) :=
  (c.decodesAs s.w).exec_next rfl hcap hclear

theorem Codec.readBytes_writeBytes (c : Codec n enc dec op op' cut join r) {store : Memory} (hwf : store.wf) (base : Nat)
    (v : BitVec m) : (store.writeBytes base (cut v)).readBytes base n = cut v := by
  rw [← c.order.length_cut v]
  exact Memory.readBytes_writeBytes hwf base (cut v)

/-- Encode in one order, then decode the same view, perhaps in the other: the response is what the second makes of the bytes the first cuts. -/
theorem Codec.exec_encode_decode (c : Codec n enc dec op op' cut join r) (c' : Codec n enc' dec' op₁ op₁' cut' join' r')
    (v : BitVec m) (hwf : s.store.wf) (hcap : n ≤ buf.cap) (hclear : s.clearFor .write buf.base n) :
    ∃ t u, exec (enc v buf) s = .next t ∧ exec (dec' buf) t = .next u ∧ u.responses.head? = some (r' (join' (cut v))) := by
  refine ⟨_, _, c.exec_encode v hcap hclear, c'.exec_decode hcap (State.clearFor_read_of_write hclear), ?_⟩
  rw [State.deliver_store, State.put_store, c.readBytes_writeBytes hwf]
  rfl

theorem Codec.comesBack (c : Codec n enc dec op op' cut join r) : ComesBack enc dec n r := by
  intro v buf s hwf hcap hclear
  simpa only [c.order.join_cut] using c.exec_encode_decode c v hwf hcap hclear

/-- Writing back the bytes read leaves the store as it was. -/
theorem Memory.writeBytes_readBytes {store : Memory} (hwf : store.wf) (base n : Nat) :
    store.writeBytes base (store.readBytes base n) = store := by
  refine Memory.ext_of_read (Memory.wf_writeBytes hwf _ _) hwf fun a => ?_
  rcases offset_or_outside a base n with ⟨k, hk, rfl⟩ | hout
  · rw [Memory.read_writeBytes_inside hwf (by simpa using hk), Memory.getElem_readBytes]
  · exact Memory.read_writeBytes_outside hwf (by simpa using hout)

theorem Codec.putsBack (c : Codec n enc dec op op' cut join r) : PutsBack enc dec n r := by
  intro buf s hwf hcap hclear
  refine ⟨_, _, _, c.exec_decode hcap (State.clearFor_read_of_write hclear), rfl, c.exec_encode _ hcap hclear, ?_⟩
  rw [c.order.cut_join _ (Memory.length_readBytes ..)]
  exact Memory.writeBytes_readBytes hwf buf.base n

theorem Codec.roundTrips (c : Codec n enc dec op op' cut join r) : ComesBack enc dec n r ∧ PutsBack enc dec n r :=
  ⟨c.comesBack, c.putsBack⟩

/-- A value whose bytes are all `b` is encoded to bytes `b`. -/
theorem Codec.encodes_constant (c : Codec n enc dec op op' cut join r) {v : BitVec m} {b : Byte}
    (hv : ∀ k < n, byteAt v k = b) (w : PtrWidth) : Encodes w (enc v) op (List.replicate n b) .done :=
  c.order.cut_constant v b hv ▸ (c.encodesAs w v).encodes

/-- Bytes that are all `b` are decoded to the value whose bytes are all `b`. -/
theorem Codec.exec_decode_constant (c : Codec n enc dec op op' cut join r) {v : BitVec m} {b : Byte}
    (hv : ∀ k < n, byteAt v k = b) (hcap : n ≤ buf.cap) (hclear : s.clearFor .read buf.base n)
    (hb : ∀ k < n, s.store.read (buf.base + k) = b) : exec (dec buf) s = .next { s with responses := r v :: s.responses } := by
  have hbytes : s.store.readBytes buf.base n = cut v := by
    rw [c.order.cut_constant v b hv]
    exact List.ext_getElem (by simp) fun k hk _ => by simpa using hb k (by simpa using hk)
  rw [c.exec_decode hcap hclear, hbytes, c.order.join_cut]
  rfl

/-- The two orders write each other's bytes in reverse (R65). -/
theorem Codec.mirrorEachOther (cb : Codec n be dec op op' (beBytes n) join r) (cl : Codec n le dec' op₁ op₁' (leBytes n) join' r') :
    MirrorEachOther be le n := by
  intro v buf s hwf hcap hclear
  refine ⟨_, _, cb.exec_encode v hcap hclear, cl.exec_encode v hcap hclear, fun k hk => ?_⟩
  have hk' : n - 1 - k < n := by omega
  simp only [State.deliver_store, State.put_store]
  rw [Memory.read_writeBytes_inside hwf (by simpa using hk), Memory.read_writeBytes_inside hwf (by simpa using hk'),
    getElem_beBytes, getElem_leBytes]

/-- Each order read as the other reverses the bytes of the value (R67). -/
theorem Codec.swaps_of_reverses (c : Codec n enc dec op op' cut join r) (c' : Codec n enc' dec' op₁ op₁' cut' join' r')
    (h : ∀ v, Reverses n v (join' (cut v))) : Swaps enc dec' n r' := by
  intro v buf s hwf hcap hclear
  obtain ⟨t, u, ht, hu, hr⟩ := c.exec_encode_decode c' v hwf hcap hclear
  exact ⟨_, t, u, ht, hu, hr, h v⟩

theorem Codec.swaps_be_le (cb : Codec n be dec op op' (beBytes n) join r) (cl : Codec n le dec' op₁ op₁' (leBytes n) join' r') :
    Swaps be dec' n r' :=
  cb.swaps_of_reverses cl fun v => reverses_iff.mpr (cl.order.cut_join _ (length_beBytes n v))

theorem Codec.swaps_le_be (cb : Codec n be dec op op' (beBytes n) join r) (cl : Codec n le dec' op₁ op₁' (leBytes n) join' r') :
    Swaps le dec n r :=
  cl.swaps_of_reverses cb fun v => reverses_symm (reverses_iff.mpr (cb.order.cut_join _ (length_leBytes n v)).symm)

end

theorem Codec.boundaries {n : Nat} {enc : BitVec (8 * n) → View → Instr} {dec : View → Instr} {op op' : BitVec 6}
    {cut : BitVec (8 * n) → List Byte} {join : List Byte → BitVec (8 * n)} {r : BitVec (8 * n) → Response}
    (c : Codec n enc dec op op' cut join r) : Boundaries enc dec op n r := by
  have hzero : ∀ k < n, byteAt (0 : BitVec (8 * n)) k = 0x00 := fun k _ => byteAt_zero _ k
  have hones : ∀ k < n, byteAt (BitVec.allOnes (8 * n)) k = 0xFF := fun k => byteAt_allOnes
  refine ⟨fun w => ⟨c.encodes_constant hzero w, c.encodes_constant hones w⟩, fun buf s hcap hclear => ?_⟩
  exact ⟨c.exec_decode_constant hzero hcap hclear, c.exec_decode_constant hones hcap hclear⟩

/-! ## The obligations

The lanes that an encode rule names are the entries of `beBytes` or `leBytes` in order. -/

/-- Settles O7, by the encode row of `codec16be`. -/
theorem enc16beWritesMostSignificantByteFirst : Obligations.Enc16beWritesMostSignificantByteFirst :=
  fun w v => (codec16be.encodesAs w v).encodes

/-- Settles O8, by the encode row of `codec32be`. -/
theorem enc32beWritesMostSignificantByteFirst : Obligations.Enc32beWritesMostSignificantByteFirst :=
  fun w v => (codec32be.encodesAs w v).encodes

/-- Settles O9, by the encode row of `codec64be`. -/
theorem enc64beWritesMostSignificantByteFirst : Obligations.Enc64beWritesMostSignificantByteFirst :=
  fun w v => (codec64be.encodesAs w v).encodes

/-- Settles O10, by the encode row of `codec16le`. -/
theorem enc16leWritesLeastSignificantByteFirst : Obligations.Enc16leWritesLeastSignificantByteFirst :=
  fun w v => (codec16le.encodesAs w v).encodes

/-- Settles O11, by the encode row of `codec32le`. -/
theorem enc32leWritesLeastSignificantByteFirst : Obligations.Enc32leWritesLeastSignificantByteFirst :=
  fun w v => (codec32le.encodesAs w v).encodes

/-- Settles O12, by the encode row of `codec64le`. -/
theorem enc64leWritesLeastSignificantByteFirst : Obligations.Enc64leWritesLeastSignificantByteFirst :=
  fun w v => (codec64le.encodesAs w v).encodes

/-- Settles O13: the sum of R22 over two bytes is the bytes side by side. -/
theorem dec16beReadsMostSignificantByteFirst : Obligations.Dec16beReadsMostSignificantByteFirst :=
  fun w => (codec16be.decodesAs w).reads fun b => congrArg Response.value16 (beWord_two (b 0) (b 1))

/-- Settles O14: the sum of R22 over four bytes is the bytes side by side. -/
theorem dec32beReadsMostSignificantByteFirst : Obligations.Dec32beReadsMostSignificantByteFirst :=
  fun w => (codec32be.decodesAs w).reads fun b => congrArg Response.value32 (beWord_four (b 0) (b 1) (b 2) (b 3))

/-- Settles O15: the sum of R22 over eight bytes is the bytes side by side. -/
theorem dec64beReadsMostSignificantByteFirst : Obligations.Dec64beReadsMostSignificantByteFirst :=
  fun w => (codec64be.decodesAs w).reads fun b =>
    congrArg Response.value64 (beWord_eight (b 0) (b 1) (b 2) (b 3) (b 4) (b 5) (b 6) (b 7))

/-- Settles O16: the bytes of DEC16BE from the other end. -/
theorem dec16leReadsLeastSignificantByteFirst : Obligations.Dec16leReadsLeastSignificantByteFirst :=
  fun w => (codec16le.decodesAs w).reads fun b =>
    congrArg Response.value16 ((leWord_eq_beWord_reverse 16 _).trans (beWord_two (b 1) (b 0)))

/-- Settles O17: the bytes of DEC32BE from the other end. -/
theorem dec32leReadsLeastSignificantByteFirst : Obligations.Dec32leReadsLeastSignificantByteFirst :=
  fun w => (codec32le.decodesAs w).reads fun b =>
    congrArg Response.value32 ((leWord_eq_beWord_reverse 32 _).trans (beWord_four (b 3) (b 2) (b 1) (b 0)))

/-- Settles O18: the bytes of DEC64BE from the other end. -/
theorem dec64leReadsLeastSignificantByteFirst : Obligations.Dec64leReadsLeastSignificantByteFirst :=
  fun w => (codec64le.decodesAs w).reads fun b =>
    congrArg Response.value64
      ((leWord_eq_beWord_reverse 64 _).trans (beWord_eight (b 7) (b 6) (b 5) (b 4) (b 3) (b 2) (b 1) (b 0)))

/-- Settles O19: cutting and joining are inverse in each order, and writing back what was read changes nothing. -/
theorem endianCodecRoundTrips : Obligations.EndianCodecRoundTrips :=
  ⟨codec16be.roundTrips, codec32be.roundTrips, codec64be.roundTrips,
    codec16le.roundTrips, codec32le.roundTrips, codec64le.roundTrips⟩

/-- Settles O20: at offset `k` the one order has the byte the other has at `n - 1 - k`. -/
theorem bigEndianMirrorsLittleEndian : Obligations.BigEndianMirrorsLittleEndian :=
  ⟨codec16be.mirrorEachOther codec16le, codec32be.mirrorEachOther codec32le, codec64be.mirrorEachOther codec64le⟩

/-- Settles O21: 0 and the maximum are the values whose bytes are all alike, so the order does not matter. -/
theorem boundaryValuesRoundTrip : Obligations.BoundaryValuesRoundTrip :=
  ⟨Codec.boundaries (n := 2) codec16be, Codec.boundaries (n := 2) codec16le, Codec.boundaries (n := 4) codec32be,
    Codec.boundaries (n := 4) codec32le, Codec.boundaries (n := 8) codec64be, Codec.boundaries (n := 8) codec64le⟩

/-- Settles O22: joining undoes cutting, so cut in one order and joined in the other the bytes stand in reverse (`reverses_iff`). -/
theorem crossedOrdersSwapTheBytes : Obligations.CrossedOrdersSwapTheBytes := by
  refine ⟨codec16be.swaps_be_le codec16le, codec32be.swaps_be_le codec32le, codec64be.swaps_be_le codec64le,
    codec16be.swaps_le_be codec16le, codec32be.swaps_le_be codec32le, codec64be.swaps_le_be codec64le,
    fun _ _ => reverses_symm, fun _ _ => reverses_symm, fun _ _ => reverses_symm, ?_, ?_, ?_⟩ <;>
  · unfold Reverses
    decide

end Sys2Proof.Machine
end

section
/-! SUPPORT. AddressCodec (spec/41_address_codec.md): what its two encode entry points and its decode do, said of the bytes; the round
trips and the big-endian EndianCodec operations of the same width; and the requests refused for a bit their operand does not have (R71). -/

open Sys2Proof.Claims

namespace Sys2Proof.Machine

/-! ## Big-endian values in a wider carrier (R22, D6) -/

theorem beValue_lt (bytes : List Byte) : beValue bytes < 256 ^ bytes.length := by
  rw [beValue_eq_leValue_reverse, ← List.length_reverse]
  exact leValue_lt _

theorem beValue_beBytes {m : Nat} (n : Nat) (v : BitVec m) : beValue (beBytes n v) = v.toNat % 256 ^ n := by
  rw [beValue_eq_leValue_reverse, beBytes_eq_reverse_leBytes, List.reverse_reverse, leValue_leBytes]

/-- A carrier that has room for the bytes holds the whole value they denote. -/
theorem toNat_beWord {m : Nat} {bytes : List Byte} (h : 8 * bytes.length ≤ m) : (beWord m bytes).toNat = beValue bytes := by
  rw [beWord, BitVec.toNat_ofNat, Nat.mod_eq_of_lt]
  calc beValue bytes < 256 ^ bytes.length := beValue_lt bytes
    _ = 2 ^ (8 * bytes.length) := (Nat.pow_mul 2 8 _).symm
    _ ≤ 2 ^ m := Nat.pow_le_pow_right (by decide) h

theorem setWidth_beWord {m l : Nat} {bytes : List Byte} (h : 8 * bytes.length ≤ m) (hm : m ≤ l) :
    (beWord m bytes).setWidth l = beWord l bytes := by
  apply BitVec.eq_of_toNat_eq
  rw [BitVec.toNat_setWidth_of_le hm, toNat_beWord h, toNat_beWord (h.trans hm)]

theorem beWord_beBytes {m n : Nat} {v : BitVec m} (h : v.toNat < 256 ^ n) : beWord m (beBytes n v) = v :=
  beWord_of_toNat_eq (by rw [beValue_beBytes, Nat.mod_eq_of_lt h])

theorem beBytes_beWord {m : Nat} {bytes : List Byte} (h : 8 * bytes.length ≤ m) :
    beBytes bytes.length (beWord m bytes) = bytes := by
  rw [beBytes_eq_reverse_leBytes, List.reverse_eq_iff]
  apply leValue_injective (by simp)
  rw [leValue_leBytes, toNat_beWord h, Nat.mod_eq_of_lt (beValue_lt bytes), beValue_eq_leValue_reverse]

/-- The bytes of a value are the same in a wider carrier. -/
theorem beBytes_setWidth {m l : Nat} (n : Nat) (v : BitVec m) (hm : m ≤ l) : beBytes n (v.setWidth l) = beBytes n v :=
  List.map_congr_left fun k _ => BitVec.eq_of_toNat_eq (by rw [toNat_byteAt, toNat_byteAt, BitVec.toNat_setWidth_of_le hm])

theorem beWord_one (a : Byte) : beWord 8 [a] = a :=
  beWord_of_toNat_eq (by simp [beValue])

theorem beBytes_one (a : Byte) : beBytes 1 a = [a] := by
  simpa [beWord_one] using beBytes_beWord (m := 8) (bytes := [a]) (by simp)

/-! ## The pointer width (R71, R74, R78) -/

theorem bits_le_carrier (w : PtrWidth) : 8 * w.bytes ≤ 64 := by
  cases w <;> decide

@[simp] theorem toNat_widthTag (w : PtrWidth) : (widthTag w).toNat = w.bytes := by
  cases w <;> rfl

theorem fits_iff {w : PtrWidth} {a : BitVec 64} : w.fits a = true ↔ a.toNat < 2 ^ (8 * w.bytes) := decide_eq_true_iff

theorem fits_eq_false_iff {w : PtrWidth} {a : BitVec 64} : w.fits a = false ↔ 2 ^ (8 * w.bytes) ≤ a.toNat := by
  rw [← Bool.not_eq_true, fits_iff, Nat.not_lt]

/-- An operand of at most `8*W` bits fits when zero extended. -/
theorem fits_setWidth {w : PtrWidth} {m : Nat} (hm : m ≤ 8 * w.bytes) (v : BitVec m) : w.fits (v.setWidth 64) = true := by
  rw [fits_iff, BitVec.toNat_setWidth_of_le (hm.trans (bits_le_carrier w))]
  exact v.isLt.trans_le (Nat.pow_le_pow_right (by decide) hm)

theorem fits_beWord {w : PtrWidth} {bytes : List Byte} (h : bytes.length = w.bytes) : w.fits (beWord 64 bytes) = true := by
  rw [← setWidth_beWord (m := 8 * w.bytes) (by rw [h]) (bits_le_carrier w)]
  exact fits_setWidth le_rfl _

theorem beWord_beBytes_of_fits {w : PtrWidth} {a : BitVec 64} (h : w.fits a = true) : beWord 64 (beBytes w.bytes a) = a :=
  beWord_beBytes (Nat.pow_mul 2 8 _ ▸ fits_iff.mp h)

/-! ## The two encode entry points and the decode (R71 to R73) -/

/-- `enc` is an encode entry point of AddressCodec, of code `op`: the operand must fit `W`, and then its `W` bytes are written
most-significant first and the tag returned. -/
structure AddressEntry (enc : BitVec 64 → View → Instr) (op : BitVec 6) : Prop where
  code : ∀ a buf, (enc a buf).code = op
  wellFormed : ∀ w a buf, (enc a buf).wellFormed w = w.fits a
  encodesAs : ∀ w a, w.fits a = true → EncodesAs w (enc a) op (beBytes w.bytes a) (.width (widthTag w))

theorem addressEntry_encaddr : AddressEntry .encaddr OpCode.encaddr where
  code _ _ := rfl
  wellFormed _ _ _ := rfl
  encodesAs _ _ ha :=
    { needed := fun _ => (length_beBytes _ _).symm
      exec_eq := fun _ _ hw => by subst hw; exact if_pos ha }

theorem addressEntry_encaddrp : AddressEntry .encaddrp OpCode.encaddrp where
  code _ _ := rfl
  wellFormed _ _ _ := rfl
  encodesAs _ _ ha :=
    { needed := fun _ => (length_beBytes _ _).symm
      exec_eq := fun _ _ hw => by subst hw; exact if_pos ha }

theorem decodesAs_decaddr (w : PtrWidth) :
    DecodesAs w .decaddr OpCode.decaddr w.bytes fun bytes => .address (beWord 64 bytes) (widthTag w) :=
  { exec_eq := fun _ _ hw => by subst hw; rfl }

section
variable {enc : BitVec 64 → View → Instr} {op : BitVec 6} {a : BitVec 64} {buf : View} {s : State}

theorem AddressEntry.exec_next (e : AddressEntry enc op) (ha : s.w.fits a = true) (hcap : s.w.bytes ≤ buf.cap)
    (hclear : s.clearFor .write buf.base s.w.bytes) :
    exec (enc a buf) s = .next ((s.put buf.base (beBytes s.w.bytes a)).deliver (.width (widthTag s.w))) :=
  (e.encodesAs s.w a ha).exec_next rfl (by simpa using hcap) (by simpa using hclear)

theorem AddressEntry.exec_of_not_fits (e : AddressEntry enc op) (ha : s.w.fits a = false) :
    exec (enc a buf) s = .refused (.operandTooWide op) := by
  rw [exec_of_not_wellFormed ((e.wellFormed ..).trans ha), e.code]

theorem exec_decaddr (hcap : s.w.bytes ≤ buf.cap) (hclear : s.clearFor .read buf.base s.w.bytes) :
    exec (.decaddr buf) s =
      .next (s.deliver (.address (beWord 64 (s.store.readBytes buf.base s.w.bytes)) (widthTag s.w))) :=
  (decodesAs_decaddr s.w).exec_next rfl hcap hclear

/-- The encode rule for an operand given without the zeros above its `8*W` bits. -/
theorem AddressEntry.encodes (e : AddressEntry enc op) {w : PtrWidth} {m : Nat} (hm : m ≤ 8 * w.bytes) (v : BitVec m) :
    Encodes w (enc (v.setWidth 64)) op (beBytes w.bytes v) (.width (widthTag w)) := by
  rw [← beBytes_setWidth w.bytes v (hm.trans (bits_le_carrier w))]
  exact (e.encodesAs w _ (fits_setWidth hm v)).encodes

theorem AddressEntry.addressEncodes (e : AddressEntry enc op) : AddressEncodes enc op := by
  refine ⟨fun v => ?_, e.encodes (w := .w2) le_rfl, e.encodes (w := .w4) le_rfl, fun v => ?_, fun a buf s ha => ?_⟩
  · exact beBytes_one v ▸ e.encodes (w := .w1) le_rfl v
  · exact (e.encodesAs .w8 v (fits_iff.mpr v.isLt)).encodes
  · exact e.exec_of_not_fits (fits_eq_false_iff.mpr ha)

/-- Encode through either entry point, then decode the same view: the bytes are read back as written. -/
theorem AddressEntry.comesBack (e : AddressEntry enc op) (ha : s.w.fits a = true) (hwf : s.store.wf)
    (hcap : s.w.bytes ≤ buf.cap) (hclear : s.clearFor .write buf.base s.w.bytes) :
    ∃ t u, exec (enc a buf) s = .next t ∧ exec (.decaddr buf) t = .next u ∧
      u.responses = .address a (widthTag s.w) :: .width (widthTag s.w) :: s.responses := by
  refine ⟨_, _, e.exec_next ha hcap hclear, exec_decaddr hcap (State.clearFor_read_of_write hclear), ?_⟩
  have hread := Memory.readBytes_writeBytes hwf buf.base (beBytes s.w.bytes a)
  rw [length_beBytes] at hread
  simp [hread, beWord_beBytes_of_fits ha]

/-- Decode a view, then encode the address returned through either entry point: the bytes written are the bytes read. -/
theorem AddressEntry.putsBack (e : AddressEntry enc op) (hwf : s.store.wf) (hcap : s.w.bytes ≤ buf.cap)
    (hclear : s.clearFor .write buf.base s.w.bytes) :
    ∃ a t u, exec (.decaddr buf) s = .next t ∧ t.responses = .address a (widthTag s.w) :: s.responses ∧
      exec (enc a buf) t = .next u ∧ u.store = s.store ∧ u.responses.head? = some (.width (widthTag s.w)) := by
  have hlen := Memory.length_readBytes s.store buf.base s.w.bytes
  have hcut := beBytes_beWord (m := 64) (bytes := s.store.readBytes buf.base s.w.bytes) (by rw [hlen]; exact bits_le_carrier s.w)
  rw [hlen] at hcut
  refine ⟨_, _, _, exec_decaddr hcap (State.clearFor_read_of_write hclear), rfl,
    e.exec_next (fits_beWord hlen) hcap hclear, ?_, rfl⟩
  simp [hcut, Memory.writeBytes_readBytes hwf]

theorem AddressEntry.responses (e : AddressEntry enc op) {t : State} (h : exec (enc a buf) s = .next t) :
    t.responses = .width (widthTag s.w) :: s.responses := by
  obtain ⟨hfits, -⟩ := Machine.exec_next h
  rw [e.wellFormed] at hfits
  rw [(e.encodesAs s.w a hfits).exec_eq buf s rfl, performEncode, perform_eq_next_iff] at h
  obtain ⟨rfl, -⟩ := h
  rfl

end

/-! ## The big-endian EndianCodec operations of the width `W` (R76) -/

section
variable {m : Nat} {enc : BitVec m → View → Instr} {dec : View → Instr} {op op' : BitVec 6} {cut : BitVec m → List Byte}
  {join : List Byte → BitVec m} {r : BitVec m → Response} {w : PtrWidth} {buf : View} {s : State}

/-- The encode of the `W` bytes of a value, most-significant first, leaves the store that ENCADDR leaves. -/
theorem Codec.encaddr_store (c : Codec w.bytes enc dec op op' (beBytes w.bytes) join r) (hm : m = 8 * w.bytes) (hw : s.w = w)
    (hcap : s.w.bytes ≤ buf.cap) (hclear : s.clearFor .write buf.base s.w.bytes) (v : BitVec m) :
    ∃ t u, exec (.encaddr (v.setWidth 64) buf) s = .next t ∧ exec (enc v buf) s = .next u ∧ t.store = u.store := by
  subst hw
  refine ⟨_, _, addressEntry_encaddr.exec_next (fits_setWidth hm.le v) hcap hclear, c.exec_encode v hcap hclear, ?_⟩
  simp [beBytes_setWidth _ v (hm.le.trans (bits_le_carrier s.w))]

/-- The decode of `W` bytes, most-significant first, returns the value that DECADDR returns. -/
theorem Codec.decaddr_value (c : Codec w.bytes enc dec op op' cut (beWord m) r) (hm : m = 8 * w.bytes) (hw : s.w = w)
    (hcap : s.w.bytes ≤ buf.cap) (hclear : s.clearFor .write buf.base s.w.bytes) :
    ∃ v t u, exec (.decaddr buf) s = .next t ∧ exec (dec buf) s = .next u ∧
      t.responses.head? = some (.address (v.setWidth 64) (widthTag w)) ∧ u.responses.head? = some (r v) := by
  subst hw
  have hread := State.clearFor_read_of_write hclear
  refine ⟨_, _, _, exec_decaddr hcap hread, c.exec_decode hcap hread, ?_, rfl⟩
  rw [setWidth_beWord (by simp [hm]) (hm.le.trans (bits_le_carrier s.w))]
  rfl

end

/-! ## Excess operand bits (R71, R99) -/

/-- The request carries a bit its operand does not have on a block of width `w`, as D6 and log entry 5 say. -/
def ExcessOperand (w : PtrWidth) (r : Request) : Prop :=
  (r.op = 0x01 ∨ r.op = 0x05) ∧ 2 ^ 16 ≤ r.value.toNat ∨ (r.op = 0x02 ∨ r.op = 0x06) ∧ 2 ^ 32 ≤ r.value.toNat ∨
    (r.op = 0x10 ∨ r.op = 0x11) ∧ 2 ^ (8 * w.bytes) ≤ r.value.toNat ∨
    ¬ ReservedCode r.op.toNat ∧ (r.op.getLsbD 3 = true ∨ r.op = 0x20) ∧ r.value ≠ 0 ∨
    ¬ ReservedCode r.op.toNat ∧ r.op ≠ 0x20 ∧ (r.length ≠ 0 ∨ r.startValue ≠ 0)

theorem ExcessOperand.not_reserved {w : PtrWidth} {r : Request} (h : ExcessOperand w r) : ¬ ReservedCode r.op.toNat := by
  rcases h with ⟨hop, -⟩ | ⟨hop, -⟩ | ⟨hop, -⟩ | ⟨hop, -⟩ | ⟨hop, -⟩
  · rcases hop with hop | hop <;> simp [hop, ReservedCode]
  · rcases hop with hop | hop <;> simp [hop, ReservedCode]
  · rcases hop with hop | hop <;> simp [hop, ReservedCode]
  · exact hop
  · exact hop

/-- The request of an operation has such a bit in an address or a pointer only: every other operand is as wide as its type. -/
theorem ExcessOperand.not_wellFormed {w : PtrWidth} {i : Instr} (h : ExcessOperand w (encode i)) : i.wellFormed w = false := by
  cases i with
  | enc16be v buf | enc16le v buf | enc32be v buf | enc32le v buf =>
    have hv := v.isLt
    simp [ExcessOperand, encode, Instr.code, OpCode.enc16be, OpCode.enc16le, OpCode.enc32be, OpCode.enc32le, Instr.valuePort,
      Instr.lengthPort, Instr.seedPort] at h
    omega
  | enc64be v buf | enc64le v buf =>
    simp [ExcessOperand, encode, Instr.code, OpCode.enc64be, OpCode.enc64le, Instr.valuePort, Instr.lengthPort,
      Instr.seedPort] at h
  | encaddr v buf | encaddrp v buf =>
    refine fits_eq_false_iff.mpr ?_
    simpa [ExcessOperand, encode, Instr.code, OpCode.encaddr, OpCode.encaddrp, Instr.valuePort, Instr.lengthPort,
      Instr.seedPort] using h
  | dec16be buf | dec32be buf | dec64be buf | dec16le buf | dec32le buf | dec64le buf | decaddr buf =>
    simp [ExcessOperand, encode, Instr.valuePort, Instr.lengthPort, Instr.seedPort] at h
  | crc32 buf length seed =>
    simp [ExcessOperand, encode, Instr.code, OpCode.crc32, Instr.valuePort] at h

section
variable {n : Nat} {r : Request} {mk : BitVec n → Instr} {i : Instr} {e : Reject}

theorem valueForm_eq_error (h : valueForm n r mk = .error e) : e = .operandTooWide r.op := by
  simp only [valueForm] at h
  split at h <;> cases h
  rfl

theorem viewForm_eq_error (h : viewForm r i = .error e) : e = .operandTooWide r.op := by
  simp only [viewForm] at h
  split at h <;> cases h
  rfl

theorem checksumForm_eq_error (h : checksumForm r i = .error e) : e = .operandTooWide r.op := by
  simp only [checksumForm] at h
  split at h <;> cases h
  rfl

/-- Under the code of an operation the decoder rejects a request only for excess bits. -/
theorem decode_eq_error (hcode : ¬ ReservedCode r.op.toNat) (h : decode r = .error e) : e = .operandTooWide r.op := by
  have hop := mt decode_eq_illegalOp_iff.mp hcode
  simp only [decode] at h hop
  split at h
  case h_1 | h_2 | h_3 | h_4 | h_5 | h_6 | h_13 | h_14 => exact valueForm_eq_error h
  case h_7 | h_8 | h_9 | h_10 | h_11 | h_12 | h_15 => exact viewForm_eq_error h
  case h_16 => exact checksumForm_eq_error h
  case h_17 => simp at hop

end

/-! ## The obligations -/

/-- Settles O24: the layout of each `W` is `beBytes` of the operand's `8*W` bits. -/
theorem encaddrWritesWBytesAndReturnsW : Obligations.EncaddrWritesWBytesAndReturnsW :=
  addressEntry_encaddr.addressEncodes

/-- Settles O25: the two entry points are of one form, so they complete in the same state. -/
theorem encaddrpEncodesThePointerAsAnAddress : Obligations.EncaddrpEncodesThePointerAsAnAddress :=
  ⟨addressEntry_encaddrp.addressEncodes, fun _ _ _ hx hcap hclear =>
    ⟨_, addressEntry_encaddrp.exec_next hx hcap hclear, addressEntry_encaddr.exec_next hx hcap hclear⟩⟩

/-- Settles O26: the sum of R22 over `W` bytes is the bytes side by side, zero extended to the carrier. -/
theorem decaddrReadsWBytesAndReturnsW : Obligations.DecaddrReadsWBytesAndReturnsW := by
  refine ⟨(decodesAs_decaddr .w1).reads fun b => ?_, (decodesAs_decaddr .w2).reads fun b => ?_,
    (decodesAs_decaddr .w4).reads fun b => ?_, (decodesAs_decaddr .w8).reads fun b => ?_⟩
  · rw [← beWord_one (b 0), setWidth_beWord (by simp) (by decide)]
    rfl
  · rw [← beWord_two (b 0), setWidth_beWord (by simp) (by decide)]
    rfl
  · rw [← beWord_four (b 0), setWidth_beWord (by simp) (by decide)]
    rfl
  · rw [← beWord_eight (b 0)]
    rfl

/-- Settles O27: the responses of AddressCodec carry `widthTag`, and those of the other operations no tag. -/
theorem everyWidthTagIsW : Obligations.EveryWidthTagIsW := by
  intro i s t h
  cases i with
  | encaddr a buf => simp [addressEntry_encaddr.responses h]
  | encaddrp p buf => simp [addressEntry_encaddrp.responses h]
  | decaddr buf =>
    rw [(decodesAs_decaddr s.w).exec_eq buf s rfl, performRead, perform_eq_next_iff] at h
    obtain ⟨rfl, -⟩ := h
    simpa [Instr.view, bytesNeeded] using fits_iff.mp (fits_beWord (s.store.length_readBytes buf.base s.w.bytes))
  | _ =>
    obtain ⟨rfl, -⟩ := perform_eq_next_iff.mp h
    simp

/-- Settles O28: the bytes read are the bytes written, and joining undoes cutting for operands that fit. -/
theorem addressRoundTrips : Obligations.AddressRoundTrips := by
  intro buf s hwf hcap hclear
  refine ⟨fun a ha i hi => ?_, addressEntry_encaddr.putsBack hwf hcap hclear⟩
  rcases hi with rfl | rfl
  · exact addressEntry_encaddr.comesBack ha hwf hcap hclear
  · exact addressEntry_encaddrp.comesBack ha hwf hcap hclear

/-- Settles O29: both codecs cut and join the same `W` bytes; the carrier alone is wider. -/
theorem addressCodecAgreesWithEndianCodec : Obligations.AddressCodecAgreesWithEndianCodec := by
  intro buf s hcap hclear
  refine ⟨fun hw => ⟨?_, ?_⟩, fun hw => ⟨?_, ?_⟩, fun hw => ⟨fun v => ?_, ?_⟩⟩
  · exact codec16be.encaddr_store (w := .w2) rfl hw hcap hclear
  · exact codec16be.decaddr_value (w := .w2) rfl hw hcap hclear
  · exact codec32be.encaddr_store (w := .w4) rfl hw hcap hclear
  · exact codec32be.decaddr_value (w := .w4) rfl hw hcap hclear
  · simpa only [BitVec.setWidth_eq] using codec64be.encaddr_store (w := .w8) rfl hw hcap hclear v
  · simpa only [BitVec.setWidth_eq] using! codec64be.decaddr_value (w := .w8) rfl hw hcap hclear

/-- Settles O58: the decoder rejects the request, or reads an operation that is not well formed. -/
theorem excessOperandBitsAreRefused : Obligations.ExcessOperandBitsAreRefused := by
  intro s r k rest hm hs hexcess
  replace hexcess : ExcessOperand s.w r := hexcess
  cases hd : decode r with
  | error e =>
    obtain rfl := decode_eq_error hexcess.not_reserved hd
    exact step_of_decode_error hm hs hd
  | ok i =>
    obtain rfl := acceptedRequestsAreEncodings r i hd
    have hi : i.wellFormed (s.withScript rest).w = false := hexcess.not_wellFormed
    rw [stepRunsTheDecodedOperation s _ k rest i hm hs hd, exec_of_not_wellFormed hi]
    rfl

end Sys2Proof.Machine
end

section
/-! SUPPORT. FrameChecksum (spec/42_frame_checksum.md): what CRC32 does, said of the bytes; the bit step and the byte step; what the
fold over the bytes keeps. -/

namespace Sys2Proof.Machine

/-! ## The operation (R83) -/

section
variable {buf : View} {n : Nat} {seed : BitVec 32} {s : State}

theorem decodesAs_crc32 (w : PtrWidth) (n : Nat) (seed : BitVec 32) :
    DecodesAs w (fun buf => .crc32 buf n seed) OpCode.crc32 n fun bytes => .crc (crc32Of seed bytes) := {}

theorem exec_crc32 (hcap : n ≤ buf.cap) (hclear : s.clearFor .read buf.base n) :
    exec (.crc32 buf n seed) s =
      .next { s with responses := .crc (crc32Of seed (s.store.readBytes buf.base n)) :: s.responses } :=
  (decodesAs_crc32 s.w n seed).exec_next rfl hcap hclear

/-- CRC32 of a view that holds the bytes `bytes`. -/
theorem exec_crc32_of_readBytes {bytes : List Byte} (hcap : n ≤ buf.cap) (hclear : s.clearFor .read buf.base n)
    (hbytes : s.store.readBytes buf.base n = bytes) :
    exec (.crc32 buf n seed) s = .next { s with responses := .crc (crc32Of seed bytes) :: s.responses } :=
  hbytes ▸ exec_crc32 hcap hclear

/-- An access of no byte conflicts with nothing (R106). -/
theorem State.clearFor_zero (s : State) (acc : Access) (base : Nat) : s.clearFor acc base 0 := by
  rintro g - ⟨-, a, -, hlo, hhi⟩
  simp only at hlo hhi
  omega

/-- Nothing conflicts with the first bytes of a run with which nothing conflicts. -/
theorem State.clearFor_of_le {acc : Access} {base m : Nat} (h : s.clearFor acc base m) (hn : n ≤ m) : s.clearFor acc base n := by
  rintro g hg ⟨hacc, a, hga, hlo, hhi⟩
  simp only at hlo hhi
  exact h g hg ⟨hacc, a, hga, hlo, by simp only; omega⟩

end

/-! ## Runs of bytes -/

theorem Memory.readBytes_succ (m : Memory) (base n : Nat) :
    m.readBytes base (n + 1) = m.readBytes base n ++ [m.read (base + n)] :=
  m.readBytes_append base n 1

/-- A run of bytes, said by the byte at each offset. -/
theorem Memory.readBytes_eq_map {m : Memory} {base n : Nat} {f : Nat → Byte} (h : ∀ k < n, m.read (base + k) = f k) :
    m.readBytes base n = (List.range n).map f :=
  List.map_congr_left fun k hk => h k (List.mem_range.mp hk)

theorem Memory.readBytes_eq_replicate {m : Memory} {base n : Nat} {b : Byte} (h : ∀ k < n, m.read (base + k) = b) :
    m.readBytes base n = List.replicate n b := by
  rw [Memory.readBytes_eq_map h, List.map_const', List.length_range]

/-- A run of bytes about the one at offset `j`. -/
theorem Memory.readBytes_split (m : Memory) (base : Nat) {n j : Nat} (hj : j < n) :
    m.readBytes base n = m.readBytes base j ++ m.read (base + j) :: m.readBytes (base + (j + 1)) (n - (j + 1)) := by
  conv_lhs => rw [← Nat.add_sub_cancel' hj, Memory.readBytes_append, Memory.readBytes_succ, List.append_assoc]
  rfl

/-- Bytes written behind a run of `n` bytes are read back behind it, and the run is as before. -/
theorem Memory.readBytes_writeBytes_behind {m : Memory} (h : m.wf) (base n : Nat) (bytes : List Byte) :
    (m.writeBytes (base + n) bytes).readBytes base (n + bytes.length) = m.readBytes base n ++ bytes := by
  rw [Memory.readBytes_append, Memory.readBytes_writeBytes h]
  congr 1
  exact Memory.readBytes_congr fun k hk => Memory.read_writeBytes_outside h (by omega)

/-! ## The bit step and the byte step (R81, R82) -/

theorem getLsbD_crcBitStep (acc : BitVec 32) {k : Nat} (hk : k < 32) :
    (crcBitStep acc).getLsbD k = ((k < 31 && acc.getLsbD (k + 1)) ^^ (acc.getLsbD 0 && (0xEDB88320#32).getLsbD k)) := by
  have hshift : (acc >>> 1).getLsbD k = (k < 31 && acc.getLsbD (k + 1)) := by
    rw [BitVec.getLsbD_ushiftRight, Nat.add_comm]
    by_cases h : k < 31
    · simp [h]
    · simp [h, BitVec.getLsbD_of_ge acc (k + 1) (by omega)]
  cases hlow : acc.getLsbD 0 with
  | false => rw [crcBitStep_of_even hlow, hshift, Bool.false_and, Bool.xor_false]
  | true => rw [crcBitStep, if_pos hlow, BitVec.getLsbD_xor, hshift, Bool.true_and, crcPoly]

theorem crcByteStep_eq_iterate (acc : BitVec 32) (b : Byte) : crcByteStep acc b = crcBitStep^[8] (acc ^^^ b.setWidth 32) := rfl

/-- Bit 31 of the polynomial is set, so bit 31 of the result tells which bit was shifted out. -/
theorem crcBitStep_injective : Function.Injective crcBitStep := by
  intro x y h
  have hbit (k : Nat) (hk : k < 32) :=
    (getLsbD_crcBitStep x hk).symm.trans ((congrArg (BitVec.getLsbD · k) h).trans (getLsbD_crcBitStep y hk))
  have hlow : x.getLsbD 0 = y.getLsbD 0 := by simpa using hbit 31 (by decide)
  refine BitVec.eq_of_getLsbD_eq fun k hk => ?_
  cases k with
  | zero => exact hlow
  | succ k =>
    have hk' : k < 31 := by omega
    simpa only [hlow, hk', decide_true, Bool.true_and, Bool.xor_left_inj] using hbit k (by omega)

theorem crcByteStep_left_injective (b : Byte) : Function.Injective (crcByteStep · b) :=
  fun _ _ h => (BitVec.xor_left_inj _).mp (crcBitStep_injective.iterate 8 h)

theorem crcByteStep_right_injective (acc : BitVec 32) : Function.Injective (crcByteStep acc) := by
  intro b c h
  have hwide : b.setWidth 32 = c.setWidth 32 := (BitVec.xor_right_inj _).mp (crcBitStep_injective.iterate 8 h)
  simpa using congrArg (BitVec.setWidth 8) hwide

/-- Bit steps on zeros alone shift them out. -/
theorem crcBitStep_iterate_of_low_zeros {n : Nat} {x : BitVec 32} (h : ∀ k < n, x.getLsbD k = false) :
    crcBitStep^[n] x = x >>> n := by
  induction n generalizing x with
  | zero => rfl
  | succ n ih =>
    rw [Function.iterate_succ_apply, crcBitStep_of_even (h 0 (by omega)), ih, ← BitVec.shiftRight_add, Nat.add_comm]
    intro k hk
    rw [BitVec.getLsbD_ushiftRight]
    exact h (1 + k) (by omega)

/-- A byte equal to the low byte of the accumulator cancels it, so the eight bit steps shift it out. -/
theorem crcByteStep_lowByte (x : BitVec 32) : crcByteStep x (byteAt x 0) = x >>> 8 := by
  have hbit (k : Nat) : (x ^^^ (byteAt x 0).setWidth 32).getLsbD k = (decide (8 ≤ k) && x.getLsbD k) := by
    by_cases h : k < 8
    · simp [byteAt, h, (by omega : k < 32)]
    · simp [byteAt, Nat.not_lt.mp h]
  rw [crcByteStep_eq_iterate, crcBitStep_iterate_of_low_zeros fun k hk => by simp [hbit, hk]]
  exact BitVec.eq_of_getLsbD_eq fun k _ => by simp [hbit]

/-! ## The fold over the bytes (R83, R25) -/

/-- The fold is the last of any sequence of accumulators that takes the bytes in increasing offset order. -/
theorem foldl_crcByteStep_readBytes {m : Memory} {base n : Nat} {acc : Nat → BitVec 32}
    (h : ∀ k < n, acc (k + 1) = crcByteStep (acc k) (m.read (base + k))) :
    (m.readBytes base n).foldl crcByteStep (acc 0) = acc n := by
  induction n with
  | zero => rfl
  | succ n ih =>
    rw [Memory.readBytes_succ, List.foldl_append, ih fun k hk => h k (by omega), h n (by omega)]
    rfl

theorem foldl_crcByteStep_injective (bytes : List Byte) : Function.Injective (bytes.foldl crcByteStep) := by
  induction bytes with
  | nil => exact fun _ _ h => h
  | cons b bytes ih => exact ih.comp (crcByteStep_left_injective b)

@[simp] theorem crc32Of_nil (seed : BitVec 32) : crc32Of seed [] = seed := BitVec.not_not

/-- Sequences that differ in one byte have different checksums from every seed. -/
theorem crc32Of_ne_of_byte_ne {b c : Byte} (h : b ≠ c) (seed : BitVec 32) (before behind : List Byte) :
    crc32Of seed (before ++ b :: behind) ≠ crc32Of seed (before ++ c :: behind) := by
  intro heq
  simp only [crc32Of, List.foldl_append, List.foldl_cons, BitVec.not_inj] at heq
  exact h (crcByteStep_right_injective _ (foldl_crcByteStep_injective behind heq))

/-- A zero accumulator stays zero over zero bytes (R92). -/
theorem foldl_crcByteStep_zeros (n : Nat) : (List.replicate n (0x00 : Byte)).foldl crcByteStep 0 = 0 := by
  induction n with
  | zero => rfl
  | succ n ih =>
    rw [List.replicate_succ, List.foldl_cons]
    exact ih

theorem leBytes_succ {m : Nat} (n : Nat) (v : BitVec m) : leBytes (n + 1) v = leBytes n v ++ [byteAt v n] := by
  simp [leBytes, List.range_succ]

/-- The bytes of `c`, least significant first, shift `c` out of an accumulator; what else stands there meets zero bytes. -/
theorem foldl_crcByteStep_leBytes (n : Nat) (c x : BitVec 32) :
    (leBytes n c).foldl crcByteStep (c ^^^ x) =
      c >>> (8 * n) ^^^ (List.replicate n (0x00 : Byte)).foldl crcByteStep x := by
  induction n with
  | zero => rfl
  | succ n ih =>
    have hbyte : byteAt c n = byteAt (c >>> (8 * n)) 0 ^^^ 0x00 :=
      BitVec.eq_of_toNat_eq (by simp [toNat_byteAt, Nat.shiftRight_eq_div_pow, Nat.pow_mul])
    rw [leBytes_succ, List.foldl_append, ih, List.replicate_succ', List.foldl_append, List.foldl_cons, List.foldl_nil,
      hbyte, crcByteStep_xor, crcByteStep_lowByte, ← BitVec.shiftRight_add]
    rfl

/-- From every seed, the bytes of the seed itself, least significant first, have one checksum. -/
theorem crc32Of_leBytes_self (c : BitVec 32) : crc32Of c (leBytes 4 c) = 0x2144DF1C := by
  have hout : c >>> (8 * 4) = 0 := BitVec.ushiftRight_eq_zero (by decide)
  rw [crc32Of, ← BitVec.xor_allOnes (x := c), foldl_crcByteStep_leBytes, hout]
  decide +kernel

/-! ## The obligations -/

/-- Settles O30: bit `k` of the shift is bit `k + 1`, and the polynomial is folded in under bit 0. -/
theorem crcBitStepShiftsAndFolds : Obligations.CrcBitStepShiftsAndFolds :=
  ⟨fun acc _ hk => getLsbD_crcBitStep acc hk, by decide, by decide, by decide, by decide, by decide⟩

/-- Settles O31: eight bit steps written out are the eighth iterate. -/
theorem crcByteStepIsEightBitSteps : Obligations.CrcByteStepIsEightBitSteps :=
  ⟨crcByteStep_eq_iterate, by decide, by decide, by decide⟩

/-- Settles O32: the response is the complement of the fold over the bytes of the view. -/
theorem crc32FoldsTheBytesInOrder : Obligations.Crc32FoldsTheBytesInOrder := by
  intro buf length seed s
  have hexec := decodesAs_crc32 s.w length seed
  refine ⟨rfl, decodeOfEncodeIsTheOperation _, hexec.exec_fault rfl, fun hcap hclear acc hstart hnext => ?_⟩
  rw [exec_crc32 hcap hclear, crc32Of, ← hstart, foldl_crcByteStep_readBytes hnext]

/-- Settles O33: no byte is touched, and the seed complemented twice is the seed. -/
theorem crc32OfNothingIsTheSeed : Obligations.Crc32OfNothingIsTheSeed := by
  intro buf seed s
  rw [exec_crc32_of_readBytes (bytes := []) (Nat.zero_le _) (s.clearFor_zero _ _) rfl, crc32Of_nil]

/-- Settles O34: `crc32Of` of two segments in order is that of the second from the result of the first. -/
theorem crc32ChainsThroughTheSeed : Obligations.Crc32ChainsThroughTheSeed := by
  intro a b c la lb seed s hcapa hcapb hcapc hcleara hclearb hclearc hreada hreadb
  have hbytes : s.store.readBytes c.base (la + lb) = s.store.readBytes a.base la ++ s.store.readBytes b.base lb := by
    rw [Memory.readBytes_append, Memory.readBytes_congr hreada, Memory.readBytes_congr hreadb]
  refine ⟨_, _, _, _, exec_crc32 hcapa hcleara, rfl, exec_crc32 hcapb hclearb, rfl, ?_⟩
  rw [exec_crc32_of_readBytes hcapc hclearc hbytes, crc32Of_append]

/-- Settles O35: the second vector by evaluating R83 on its nine bytes. -/
theorem crc32KnownVectors : Obligations.Crc32KnownVectors := by
  refine ⟨fun buf s => crc32OfNothingIsTheSeed buf 0 s, fun buf s hcap hclear hread => ?_⟩
  have hcheck : crc32Of 0 ((List.range 9).map fun k => BitVec.ofNat 8 (0x31 + k)) = 0xCBF43926 := by decide +kernel
  rw [exec_crc32_of_readBytes hcap hclear (Memory.readBytes_eq_map hread), hcheck]

/-- Settles O36: the complement of 0xFFFFFFFF is the zero accumulator, which zero bytes leave zero. -/
theorem crc32OfZeroBytes : Obligations.Crc32OfZeroBytes := by
  refine fun buf s => ⟨fun length hcap hclear hread => ?_, fun hcap hclear hread => ?_⟩
  · have hzeros : crc32Of 0xFFFFFFFF (List.replicate length 0x00) = 0xFFFFFFFF :=
      congrArg (~~~ ·) (foldl_crcByteStep_zeros length)
    rw [exec_crc32_of_readBytes hcap hclear (Memory.readBytes_eq_replicate hread), hzeros]
  · have hvector : crc32Of 0 [0x00] = 0xD202EF8D := by decide
    rw [exec_crc32_of_readBytes hcap hclear (congrArg (fun b => [b]) hread), hvector]

/-- Settles O37: `crc32Of` sees the seed and the bytes alone. -/
theorem crc32DependsOnTheBytesOnly : Obligations.Crc32DependsOnTheBytesOnly := by
  intro a b length seed s t hcapa hcapb hcleara hclearb hread
  exact ⟨_, exec_crc32 hcapa hcleara, exec_crc32_of_readBytes hcapb hclearb (Memory.readBytes_congr hread).symm⟩

/-- Settles O38: behind the data the checksum meets its own bytes, whatever it is (`crc32Of_leBytes_self`). -/
theorem littleEndianTrailerLeavesAConstant : Obligations.LittleEndianTrailerLeavesAConstant := by
  intro buf n s hwf hcap hread hwrite
  refine ⟨_, _, _, _, exec_crc32 (by omega) (State.clearFor_of_le hread (by omega)), rfl,
    codec32le.exec_encode _ (by simp only; omega) hwrite,
    exec_crc32_of_readBytes hcap hread (Memory.readBytes_writeBytes_behind hwf buf.base n _), ?_⟩
  rw [crc32Of_append, crc32Of_leBytes_self]
  rfl

/-- Settles O39: the steps are injective in the byte and in the accumulator, so a difference is never lost again. -/
theorem oneChangedByteChangesTheChecksum : Obligations.OneChangedByteChangesTheChecksum := by
  intro a b n j seed s hcapa hcapb hcleara hclearb hj hne hread
  refine ⟨_, _, exec_crc32 hcapa hcleara, exec_crc32 hcapb hclearb, ?_⟩
  have hbefore : s.store.readBytes a.base j = s.store.readBytes b.base j :=
    Memory.readBytes_congr fun k hk => hread k (by omega) (by omega)
  have hbehind : s.store.readBytes (a.base + (j + 1)) (n - (j + 1)) = s.store.readBytes (b.base + (j + 1)) (n - (j + 1)) :=
    Memory.readBytes_congr fun k hk => by simpa only [Nat.add_assoc] using hread (j + 1 + k) (by omega) (by omega)
  rw [Memory.readBytes_split _ a.base hj, Memory.readBytes_split _ b.base hj, hbefore, hbehind]
  exact crc32Of_ne_of_byte_ne hne seed _ _

end Sys2Proof.Machine
end

section
/-! SUPPORT. Faults, races and stops (spec/60_exceptions.md): what a short view and a conflict do to an operation, what operations in
flight together keep, and how a run ends. -/

open Sys2Proof.Claims

namespace Sys2Proof.Machine

/-! ## Operations in flight together (R106, R115) -/

/-- Whether operations in flight conflict depends on `W` and on these operations alone. -/
theorem flightsApart_congr {s t : State} (hw : t.w = s.w) (hflight : t.inFlight = s.inFlight) (hs : FlightsApart s) :
    FlightsApart t := by
  simpa only [FlightsApart, hw, hflight] using hs

/-- An act that passes brings no operation into flight. -/
theorem State.clearFor_tick {s : State} {acc : Access} {base n : Nat} (h : s.clearFor acc base n) :
    s.tick.clearFor acc base n := by
  intro g hg
  obtain ⟨g', hg', hinstr, -⟩ := s.mem_tick_inFlight hg
  exact hinstr ▸ h g' hg'

/-- An act that passes changes no operation still in flight, but for the acts it has left. -/
theorem flightsApart_tick {s : State} (hs : FlightsApart s) : FlightsApart s.tick := by
  refine List.Pairwise.filterMap _ (fun f g hfg f' hf' g' hg' => ?_) hs
  obtain ⟨-, ⟨⟩⟩ := Option.ite_none_left_eq_some.mp hf'
  obtain ⟨-, ⟨⟩⟩ := Option.ite_none_left_eq_some.mp hg'
  exact hfg

/-- An operation that conflicts with none in flight joins them. -/
theorem flightsApart_launch {s : State} {i : Instr} (k : Nat) (hs : FlightsApart s)
    (hclear : s.clearFor (accessOf i) i.view.base (bytesNeeded s.w i)) : FlightsApart (s.launch i k) := by
  cases k with
  | zero => exact hs
  | succ k => exact List.Pairwise.cons (fun g hg hclash => hclear g hg ((Footprint.clash_comm _ _).mp hclash)) hs

/-- Settles O52: only an operation that completes comes into flight, and it completes only where nothing in flight conflicts. -/
theorem flightsNeverConflict : Obligations.FlightsNeverConflict := by
  intro s t hs h
  rcases step_next h with ⟨-, rfl⟩ | ⟨r, k, rest, i, u, -, -, hu, rfl⟩ | ⟨base, bytes, rest, -, -, rfl⟩ | ⟨rest, -, -, rfl⟩
  · exact hs
  · obtain ⟨hw, -, hflight, -⟩ := exec_frame hu
    obtain ⟨hi, hcap, hclear, -⟩ := exec_next hu
    obtain ⟨-, -, hclear'⟩ : u.admits i := admits_of_exec hu ⟨hi, hcap, hclear⟩
    exact flightsApart_launch k (flightsApart_tick (flightsApart_congr hw hflight hs)) (State.clearFor_tick hclear')
  · exact flightsApart_tick hs
  · exact hs

/-! ## What one operation meets: a short view, a conflict, or neither (R97, R106, R114) -/

section
variable {i : Instr} {s : State}

/-- A well-formed operation is `perform` of some effect. -/
theorem exec_eq_perform (hi : i.wellFormed s.w = true) : ∃ effect, exec i s = perform i s effect := by
  rcases exec_shape i s.w hi with ⟨-, bytes, r, -, hx⟩ | ⟨-, respond, hx⟩
  · exact ⟨_, hx s rfl⟩
  · exact ⟨_, hx s rfl⟩

theorem exec_of_short_view (hi : i.wellFormed s.w = true) (hcap : i.view.cap < bytesNeeded s.w i) :
    exec i s = .fault (.capacityViolation i.code (bytesNeeded s.w i) i.view.cap) := by
  obtain ⟨effect, hx⟩ := exec_eq_perform hi
  rw [hx, perform_fault hcap]

/-- The race refused is with the conflict found first, and both requests are on record. -/
theorem exec_of_conflict {g : Flight} (hi : i.wellFormed s.w = true) (hcap : bytesNeeded s.w i ≤ i.view.cap)
    (hg : s.conflict (footprintOf s.w i) = some g) :
    exec i s = .refused (.raceRefused (.operation (encode i)) (encode g.instr)) := by
  obtain ⟨effect, hx⟩ := exec_eq_perform hi
  simp only [hx, perform, if_pos hcap, hg]

end

/-- Where an operation in flight conflicts, the search finds one. -/
theorem State.exists_conflict {s : State} {f : Footprint} {g : Flight} (hg : g ∈ s.inFlight)
    (hclash : (footprintOf s.w g.instr).clash f) : ∃ g', s.conflict f = some g' := by
  refine Option.ne_none_iff_exists'.mp fun hnone => ?_
  exact (s.conflict_eq_none_iff f).mp hnone g hg hclash

/-- Settles O45: what a completed operation met is the contract. -/
theorem operationsCompleteExactlyUnderTheContract : Obligations.OperationsCompleteExactlyUnderTheContract := by
  refine fun i s => ⟨fun ⟨t, h⟩ => ?_, exec_completes_of_admits⟩
  obtain ⟨hi, hcap, hclear, -⟩ := exec_next h
  exact ⟨hi, hcap, hclear⟩

/-- Settles O46: the refusal comes of a conflict found, and the search finds one exactly where there is one. -/
theorem conflictingOperationsAreRefused : Obligations.ConflictingOperationsAreRefused := by
  intro i s hi hcap
  refine ⟨⟨fun ⟨g, hg, hclash⟩ => ?_, fun ⟨mine, other, h⟩ => ?_⟩, fun mine other h => ?_⟩
  · obtain ⟨g', hg'⟩ := State.exists_conflict hg hclash
    exact ⟨_, _, exec_of_conflict hi hcap hg'⟩
  · obtain ⟨g, hg⟩ := exec_eq_race h
    exact ⟨g, State.conflict_eq_some hg⟩
  · obtain ⟨g, hg⟩ := exec_eq_race h
    rw [exec_of_conflict hi hcap hg] at h
    obtain ⟨hmem, hclash⟩ := State.conflict_eq_some hg
    cases h
    exact ⟨rfl, g, hmem, rfl, hclash⟩

/-! ## Stops (R97, R103, R104) -/

section
variable {s : State} {x : Stop}

theorem State.stopped_of_unmarked (hm : s.mark = none) (x : Stop) : s.stopped x = { s with mark := some x } := by
  rw [State.stopped, hm, Option.getD_none]

theorem State.stopped_of_marked (hm : s.mark = some x) (y : Stop) : s.stopped y = s := by
  rw [State.stopped, hm, Option.getD_some, ← hm]

@[simp] theorem State.after_outcome (s : State) (x : Stop) : s.after x.outcome = s.stopped x := by
  cases x <;> rfl

theorem step_of_marked (hm : s.mark = some x) : step s = x.outcome := by
  simp only [step, advance, hm]

/-- No number of acts changes a marked state. -/
theorem State.runFor_of_marked (hm : s.mark = some x) (n : Nat) : State.runFor n s = s := by
  induction n with
  | zero => rfl
  | succ n ih => rw [State.runFor, step_of_marked hm, State.after_outcome, State.stopped_of_marked hm, ih]

end

/-- Settles O53: a marked state answers its mark, and a mark already there stays. -/
theorem markedRunsAreOver : Obligations.MarkedRunsAreOver :=
  fun _ _ hm => ⟨step_of_marked hm, State.runFor_of_marked hm⟩

/-- Settles O54: from an unmarked state a stop sets the mark and nothing else. -/
theorem stopsLeaveAllButTheMark : Obligations.StopsLeaveAllButTheMark := by
  refine fun s hm => ⟨fun f h => ?_, fun x h => ?_⟩
  · rw [h, State.after_fault, State.stopped_of_unmarked hm]
  · rw [h, State.after_refused, State.stopped_of_unmarked hm]

/-- The step that handles the request of an operation with too short a view. -/
theorem step_of_short_view {i : Instr} {s : State} {k : Nat} {rest : List CallerAct} (hi : i.wellFormed s.w = true)
    (hcap : i.view.cap < bytesNeeded s.w i) (hm : s.mark = none) (hs : s.script = .request (encode i) k :: rest) :
    step s = .fault (.capacityViolation i.code (bytesNeeded s.w i) i.view.cap) := by
  rw [stepRunsTheDecodedOperation s _ k rest i hm hs (decodeOfEncodeIsTheOperation i),
    exec_of_short_view (s := s.withScript rest) hi hcap]
  rfl

/-- Settles O44: the capacity check stands before the race check, and a marked run is over. -/
theorem shortViewsFault : Obligations.ShortViewsFault := by
  refine fun i s hi hcap => ⟨exec_of_short_view hi hcap, fun k rest hm hs n => ?_⟩
  rw [State.runFor, step_of_short_view hi hcap hm hs, State.after_fault, State.stopped_of_unmarked hm]
  exact State.runFor_of_marked rfl n

/-! ## The end of a script (R108, R123) -/

/-- A step to a next state takes one act off the script. -/
theorem step_script {s t : State} {a : CallerAct} {rest : List CallerAct} (hs : s.script = a :: rest) (h : step s = .next t) :
    t.script = rest := by
  rcases step_next h with ⟨hs', -⟩ | ⟨r, k, rest', i, u, hs', -, hu, rfl⟩ | ⟨base, bytes, rest', hs', -, rfl⟩ | ⟨rest', hs', -, rfl⟩
  all_goals obtain ⟨⟩ := hs'.symm.trans hs
  · obtain ⟨-, hscript, -⟩ := exec_frame hu
    exact hscript
  · rfl
  · rfl

/-- One act either goes off the script or stops the run. -/
theorem after_step_script_or_marked {s : State} {a : CallerAct} {rest : List CallerAct} (hs : s.script = a :: rest) :
    (s.after (step s)).script = rest ∨ ∃ x, (s.after (step s)).mark = some x := by
  cases h : step s with
  | next t => exact .inl (step_script hs h)
  | fault f => exact .inr ⟨_, s.stopped_mark _⟩
  | refused x => exact .inr ⟨_, s.stopped_mark _⟩

/-- Settles O55, by induction on the script: each act goes off it or stops the run, and a stopped run stays stopped. -/
theorem scriptsEndOrStop : Obligations.ScriptsEndOrStop := by
  intro s
  induction hs : s.script generalizing s with
  | nil =>
    cases hm : s.mark with
    | none => exact .inl ⟨hs, hm⟩
    | some x => exact .inr (Option.isSome_of_eq_some hm)
  | cons a rest ih =>
    rw [List.length_cons, State.runFor]
    rcases after_step_script_or_marked hs with hrest | ⟨x, hx⟩
    · exact ih _ hrest
    · rw [State.runFor_of_marked hx]
      exact .inr (Option.isSome_of_eq_some hx)

end Sys2Proof.Machine
end
